-- ==== Sys2Proof/Word.lean ====
section
/-! DEFINITION. The two word types of CORE. Every value is unsigned (R13); an octet and a byte are the same 8-bit quantity. -/

namespace Sys2Proof

/-- An octet of the frame buffer (R13). -/
abbrev Octet := BitVec 8

/-- The width of the checksum register and of the FCS (R23, R79). -/
abbrev Word16 := BitVec 16

/-- A recovered callsign character, a 7-bit code (R41, R73). -/
abbrev Char7 := BitVec 7

end Sys2Proof
end

