-- ==== Sys2Proof/Machine/Records.lean ====
section
/-! DEFINITION. The records of CORE (R16, R41) and the named alternatives its rules use: stages (R29), errors (R170), frame kinds (R37), the two phases (R46), and the working registers of one call (R23 to R31, R42). -/

namespace Sys2Proof.Machine

/-- The rows of spec/opcode_table.json, as what a presentation selects: no bits of the input select an operation (R80, R81), so the selection stands beside the octets (log 3). -/
inductive Op where
  | crcInit | crcByte | crcFinal | fcsCompute | fcsVerify
  | addrSlot | addrField | ctlClassify | ctlPidsel | frameDecode
  | kindI | kindS | kindU | ctlUi | callsignOctet | ssidOctet | fcsField
deriving DecidableEq, Repr

/-- Why a presentation is no instruction: the operand octets do not have the shape the operation takes. -/
inductive Reject where
  /-- The operation takes another number of octets than the `got` presented. -/
  | operandLength (op : Op) (got : Nat)
  /-- The octets do not have the fixed bits of the row's pattern. -/
  | pattern (op : Op)
deriving DecidableEq, Repr

/-- An address slot, exactly 7 octets (R72): six callsign octets and the SSID octet. -/
structure Slot where
  o0 : Octet
  o1 : Octet
  o2 : Octet
  o3 : Octet
  o4 : Octet
  o5 : Octet
  ssid : Octet
deriving DecidableEq, Repr

/-- An Address record (R41): six untrimmed characters, the trimmed length, the 4-bit suffix and the flag `last` (the source's `chain_continues`, R75). -/
structure Address where
  ch : Vector Char7 6
  callLen : Nat
  suffix : BitVec 4
  last : Bool
deriving DecidableEq, Repr, Inhabited

/-- The frame kind (R37). -/
inductive Kind where
  | information | supervisory | unnumbered
deriving DecidableEq, Repr, Inhabited

/-- The three flags of the Control-Field Classifier (R140). -/
structure KindFlags where
  isInformation : Bool
  isSupervisory : Bool
  isUnnumbered : Bool
deriving DecidableEq, Repr, Inhabited

/-- The four decode errors (R170), each an ordinary result of a call. -/
inductive DecodeError where
  | tooShort | checksumMismatch | malformedAddressField | truncated
deriving DecidableEq, Repr

/-- What `ADDR.FIELD` returns when it does not fail (R125). -/
structure FieldOk where
  destination : Address
  source : Address
  relays : List Address
  consumed : Nat
deriving DecidableEq, Repr, Inhabited

/-- A decoded frame (R16, R34 to R39). The payload is a view, an offset into `BUF` and a length (R39). -/
structure Frame where
  destination : Address
  source : Address
  relays : List Address
  control : Octet
  kind : Kind
  protocolId : Option Octet
  payloadOff : Nat
  payloadLen : Nat
deriving DecidableEq, Repr

/-- How a call ended (R16, R32): a whole frame, or exactly one error and no frame field (R33). -/
inductive Result where
  | ok (f : Frame)
  | err (e : DecodeError)
deriving DecidableEq, Repr

/-- The stages of the pipeline, in order (R29). -/
inductive Stage where
  | sLen | sFcs | sAddr | sCtl | sPid | sPay | sDone
deriving DecidableEq, Repr, Inhabited

/-- The wrapper's one bit of state (R46). -/
inductive Phase where
  | idle | done
deriving DecidableEq, Repr

/-- The working registers, flags and relay file of one call (R23 to R31, R42), with the quantities the rules of the frame assembler assign before `RESULT` is written (R126, R154, R157, R158). -/
structure Work where
  stage : Stage
  crc : Word16
  n : Nat
  pos : Nat
  nrel : Nat
  a : Nat
  fcsOk : Bool
  flags : KindFlags
  pidPresent : Bool
  destination : Address
  source : Address
  /-- `RELAY[0..7]`; an entry without a value is `none` (R42). -/
  relay : Vector (Option Address) 8
  control : Octet
  protocolId : Option Octet
  payloadOff : Nat
  payloadLen : Nat
deriving DecidableEq, Repr, Inhabited

/-- What a component operation returns (`return v`, R15), by the operation that returns it. -/
inductive Value where
  /-- A 16-bit FCS: `CRC.FINAL`, `FCS.COMPUTE`, the received value of `FCS_FIELD`. -/
  | fcs (v : Word16)
  /-- `FCS.VERIFY`. -/
  | verified (b : Bool)
  /-- `ADDR.SLOT`. -/
  | address (a : Address)
  /-- `ADDR.FIELD`; `none` is its `Error`. -/
  | field (r : Option FieldOk)
  /-- `CTL.CLASSIFY` and the control-octet rows. -/
  | kind (k : KindFlags)
  /-- `CTL.PIDSEL`. -/
  | pidPresent (b : Bool)
  /-- `CALLSIGN_OCTET`. -/
  | char (c : Char7)
  /-- `SSID_OCTET`. -/
  | ssid (suffix : BitVec 4) (last : Bool)
deriving DecidableEq, Repr

end Sys2Proof.Machine
end

