-- ==== Sys2Proof/Config.lean ====
section
/-! DEFINITION. The constants of the hardware (R9), the floor `MIN_LEN` with its two admitted values (R10), and the one free value: the working registers after a call. -/

namespace Sys2Proof.Config

/-- The admitted values of `MIN_LEN` (R10, D3): the spec's 17 and the repository's literal 16. -/
inductive Floor where
  | spec17
  | repo16
deriving DecidableEq, Repr

/-- `MIN_LEN` as a number of octets. -/
def Floor.minLen : Floor → Nat
  | .spec17 => 17
  | .repo16 => 16

/-- The floor this hardware is built with: the spec sets `MIN_LEN = 17` (R10, D3; log 2). -/
def floor : Floor := .spec17

/-- `ADDR_MIN` (R9): two mandatory slots. -/
abbrev addrMin : Nat := 14

/-- `SLOT_LEN` (R9): octets per address slot. -/
abbrev slotLen : Nat := 7

/-- `MAX_RELAYS` (R9). -/
abbrev maxRelays : Nat := 8

/-- `FCS_LEN` (R9). -/
abbrev fcsLen : Nat := 2

/-- `VERIFY_MIN` (R9): the shortest body `FCS.VERIFY` accepts. -/
abbrev verifyMin : Nat := 3

/-- `CTL_LEN` (R9). -/
abbrev ctlLen : Nat := 1

/-- `PID_LEN` (R9). -/
abbrev pidLen : Nat := 1

/-- `CALL_CHARS` (R9). -/
abbrev callChars : Nat := 6

/-- `CRC_INIT` (R9). -/
abbrev crcInit : Word16 := 0xFFFF#16

/-- `CRC_POLY_R` (R9): XORed in after a right shift. -/
abbrev crcPolyR : Word16 := 0x8408#16

/-- `CRC_XOROUT` (R9): the final complement. -/
abbrev crcXorOut : Word16 := 0xFFFF#16

/-- `PAD` (R9): the padding character after the right shift. -/
abbrev pad : Char7 := 0x20#7

/-- `UI_CONTROL` (R9). -/
abbrev uiControl : Octet := 0x03#8

/-- FREE VALUE. What the working registers hold after the `k`-th call: no register survives a call (R175, R31) and the spec gives them any value (U5). Nothing constrains it (log 6). -/
opaque freeWork : Nat → Machine.Work

end Sys2Proof.Config
end

