-- ==== Sys2Proof/Syntax.lean ====
section
/-! DEFINITION. The instructions: one constructor for each row of spec/opcode_table.json (R81). CORE has no command word (R80); an instruction is an operation with its operands, or one of the seven decodable bit patterns with its octets. -/

namespace Sys2Proof

open Sys2Proof.Machine (Slot)

/-- One constructor for each row of the opcode table. -/
inductive Instr where
  /-- `CRC.INIT` (R100). -/
  | crcInit
  /-- `CRC.BYTE` of one octet (R101); the other operand is the register `crc`. -/
  | crcByte (b : Octet)
  /-- `CRC.FINAL` (R102); its operand is the register `crc` (log 13). -/
  | crcFinal
  /-- `FCS.COMPUTE` of a list of octets (R103). -/
  | fcsCompute (data : List Octet)
  /-- `FCS.VERIFY` of a body whose last two octets are the received FCS (R104). -/
  | fcsVerify (body : List Octet)
  /-- `ADDR.SLOT` of exactly 7 octets (R120). -/
  | addrSlot (slot : Slot)
  /-- `ADDR.FIELD` of a region; `n` is its length (R125). -/
  | addrField (reg : List Octet)
  /-- `CTL.CLASSIFY` of a control octet (R140). -/
  | ctlClassify (control : Octet)
  /-- `CTL.PIDSEL` of a control octet and its flags (R143). -/
  | ctlPidsel (control : Octet)
  /-- `FRAME.DECODE` of the buffer as it stands in the state (R150). -/
  | frameDecode
  /-- `KIND.I`: a control octet of mask 0x01, match 0x00 (R76). -/
  | kindI (control : Octet)
  /-- `KIND.S`: a control octet of mask 0x03, match 0x01 (R76). -/
  | kindS (control : Octet)
  /-- `KIND.U`: a control octet of mask 0x03, match 0x03 (R76). -/
  | kindU (control : Octet)
  /-- `CTL.UI`: the control octet 0x03 (R76, R143). -/
  | ctlUi
  /-- `CALLSIGN_OCTET`, pattern cccccccx (R73). -/
  | callsignOctet (o : Octet)
  /-- `SSID_OCTET`, pattern rrrssssl (R74). -/
  | ssidOctet (o : Octet)
  /-- `FCS_FIELD`, the low octet first (R79). -/
  | fcsField (l : Octet) (h : Octet)
deriving DecidableEq, Repr

end Sys2Proof
end

