-- ==== Sys2Proof/WellFormed.lean ====
section
/-! DEFINITION. Well-formed instructions: a control-octet row holds only octets that have the row's fixed bits (its mask and match, R76). No other operand is restricted: no octet value is illegal in any position (R82). -/

namespace Sys2Proof

/-- An octet has the fixed bits of a row: `octet AND mask = match` (R76, R81). -/
def fitsPattern (mask value : Octet) (o : Octet) : Bool :=
  o &&& mask == value

/-- The check on an instruction. -/
def Instr.wellFormed : Instr → Bool
  | .kindI c => fitsPattern 0x01#8 0x00#8 c
  | .kindS c => fitsPattern 0x03#8 0x01#8 c
  | .kindU c => fitsPattern 0x03#8 0x03#8 c
  | .crcInit | .crcByte _ | .crcFinal | .fcsCompute _ | .fcsVerify _ | .addrSlot _ | .addrField _ => true
  | .ctlClassify _ | .ctlPidsel _ | .frameDecode | .ctlUi | .callsignOctet _ | .ssidOctet _ | .fcsField _ _ => true

end Sys2Proof
end

