-- ==== Sys2Proof/Decode.lean ====
section
/-! DEFINITION. From presented octets to an instruction, total and rejecting by name, and the encoder back. No bits select an operation (R80), so the decoder is told which operation the octets are presented to; `opOfOctets` is the model's reading of bare octets, by the fixed bits and the widths of the opcode table (log 4). -/

namespace Sys2Proof

open Sys2Proof.Machine (Op Reject Slot)

/-- The operation or pattern row an instruction is. -/
def Instr.op : Instr → Op
  | .crcInit => .crcInit
  | .crcByte _ => .crcByte
  | .crcFinal => .crcFinal
  | .fcsCompute _ => .fcsCompute
  | .fcsVerify _ => .fcsVerify
  | .addrSlot _ => .addrSlot
  | .addrField _ => .addrField
  | .ctlClassify _ => .ctlClassify
  | .ctlPidsel _ => .ctlPidsel
  | .frameDecode => .frameDecode
  | .kindI _ => .kindI
  | .kindS _ => .kindS
  | .kindU _ => .kindU
  | .ctlUi => .ctlUi
  | .callsignOctet _ => .callsignOctet
  | .ssidOctet _ => .ssidOctet
  | .fcsField _ _ => .fcsField

/-- An operation that takes one octet. -/
def takeOne (op : Op) (mk : Octet → Instr) : List Octet → Except Reject Instr
  | [o] => .ok (mk o)
  | bs => .error (.operandLength op bs.length)

/-- A control-octet row: one octet with the row's fixed bits (R76). -/
def takeControl (op : Op) (mk : Octet → Instr) : List Octet → Except Reject Instr
  | [c] => if (mk c).wellFormed then .ok (mk c) else .error (.pattern op)
  | bs => .error (.operandLength op bs.length)

/-- An operation that takes no octets. -/
def takeNone (op : Op) (i : Instr) : List Octet → Except Reject Instr
  | [] => .ok i
  | bs => .error (.operandLength op bs.length)

/-- A row whose every bit is fixed: exactly its octets. -/
def takeFixed (op : Op) (i : Instr) (fixed : List Octet) (bs : List Octet) : Except Reject Instr :=
  if bs = fixed then .ok i
  else if bs.length = fixed.length then .error (.pattern op)
  else .error (.operandLength op bs.length)

/-- A row of two octets. -/
def takeTwo (op : Op) (mk : Octet → Octet → Instr) : List Octet → Except Reject Instr
  | [l, h] => .ok (mk l h)
  | bs => .error (.operandLength op bs.length)

/-- An operation on a slot: exactly 7 octets (R120). -/
def takeSlot (op : Op) (mk : Slot → Instr) : List Octet → Except Reject Instr
  | [o0, o1, o2, o3, o4, o5, o6] => .ok (mk ⟨o0, o1, o2, o3, o4, o5, o6⟩)
  | bs => .error (.operandLength op bs.length)

/-- The instruction that octets presented to an operation are. `FRAME.DECODE` takes any buffer and reads it in place (R82, R150). `CRC.INIT` has no operand and takes no octets (R81, R100); `CRC.FINAL` takes none either: its operand is the register `crc` (log 13). -/
def decode (op : Op) (bs : List Octet) : Except Reject Instr :=
  match op with
  | .crcInit => takeNone .crcInit .crcInit bs
  | .crcByte => takeOne .crcByte .crcByte bs
  | .crcFinal => takeNone .crcFinal .crcFinal bs
  | .fcsCompute => .ok (.fcsCompute bs)
  | .fcsVerify => .ok (.fcsVerify bs)
  | .addrSlot => takeSlot .addrSlot .addrSlot bs
  | .addrField => .ok (.addrField bs)
  | .ctlClassify => takeOne .ctlClassify .ctlClassify bs
  | .ctlPidsel => takeOne .ctlPidsel .ctlPidsel bs
  | .frameDecode => .ok .frameDecode
  | .kindI => takeControl .kindI .kindI bs
  | .kindS => takeControl .kindS .kindS bs
  | .kindU => takeControl .kindU .kindU bs
  | .ctlUi => takeFixed .ctlUi .ctlUi [Config.uiControl] bs
  | .callsignOctet => takeOne .callsignOctet .callsignOctet bs
  | .ssidOctet => takeOne .ssidOctet .ssidOctet bs
  | .fcsField => takeTwo .fcsField .fcsField bs

/-- The octets of an instruction, in the order they are presented. The buffer of `FRAME.DECODE` is its operand in memory and no octet of its own. -/
def encode : Instr → List Octet
  | .crcInit => []
  | .crcByte b => [b]
  | .crcFinal => []
  | .fcsCompute data => data
  | .fcsVerify body => body
  | .addrSlot s => [s.o0, s.o1, s.o2, s.o3, s.o4, s.o5, s.ssid]
  | .addrField reg => reg
  | .ctlClassify c => [c]
  | .ctlPidsel c => [c]
  | .frameDecode => []
  | .kindI c => [c]
  | .kindS c => [c]
  | .kindU c => [c]
  | .ctlUi => [Config.uiControl]
  | .callsignOctet o => [o]
  | .ssidOctet o => [o]
  | .fcsField l h => [l, h]

/-- The row that bare octets are read as, the narrowest row first: one octet is a control octet (R76, R81), two are the value CRC.INIT loads or an FCS field, seven are a slot, any other run is a whole buffer (log 4). -/
def opOfOctets : List Octet → Op
  | [c] =>
    if c = Config.uiControl then .ctlUi
    else if fitsPattern 0x01#8 0x00#8 c then .kindI
    else if fitsPattern 0x03#8 0x01#8 c then .kindS
    else .kindU
  | [l, h] => if l = 0xFF#8 ∧ h = 0xFF#8 then .crcInit else .fcsField
  | [_, _, _, _, _, _, _] => .addrSlot
  | _ => .frameDecode

/-- The octets that bare octets hand to their row: the table's pattern for CRC.INIT is the value it loads and no input (R81), every other row takes them as they are. -/
def operandsOfOctets (bs : List Octet) : List Octet :=
  match opOfOctets bs with
  | .crcInit => []
  | _ => bs

/-- The instruction that bare octets are read as. -/
def decodeOctets (bs : List Octet) : Except Reject Instr :=
  decode (opOfOctets bs) (operandsOfOctets bs)

/-- The first `k` octets of a number, the least significant first: the word numbering of the opcode table over octets (log 17). -/
def octetsOfNat : Nat → Nat → List Octet
  | 0, _ => []
  | k + 1, w => BitVec.ofNat 8 w :: octetsOfNat k (w / 256)

/-- The octets of an opcode-table word of `nbits` bits. -/
def tableOctets (nbits w : Nat) : List Octet :=
  octetsOfNat (nbits / 8) w

/-- The instruction the decoder reads from an opcode-table word. -/
def decodeTableWord (nbits w : Nat) : Option Instr :=
  match decodeOctets (tableOctets nbits w) with
  | .ok i => some i
  | .error _ => none

end Sys2Proof
end

