-- ==== Sys2Proof/Machine/State.lean ====
section
/-! DEFINITION. The machine's state as plain data, its reset, and why a step can stop. -/

namespace Sys2Proof.Machine

/-- Why the machine stops. -/
inductive Fault where
  /-- A read of the frame buffer at an offset `addr >= LEN`, which the spec says never happens and asks to fault (R55, U8). Raised by `memRead`. Safe: the model stops where hardware would do something the spec does not give; no operation of CORE reaches it. -/
  | bufferRange (addr : Nat)
deriving DecidableEq, Repr

/-- Why a presented operation has no meaning. -/
inductive Refusal where
  /-- The instruction of this mnemonic has no meaning in the model. Raised by `exec`. Safe: nothing is claimed of it. -/
  | notModelled (mnemonic : String)
  /-- The octets presented to a component operation are no operand of it (R120, R81). Raised by `step`. Safe: hardware has no such move, since only `FRAME.DECODE` is invoked at its boundary (R80). -/
  | badRequest (r : Reject)
deriving DecidableEq, Repr

/-- The state. `buf` lists the octets of `BUF` that are not 0x00, by rising offset; an unlisted offset below `len` holds 0x00 (log 8). -/
structure State where
  /-- `BUF` (R21, R50). -/
  buf : List Host.Cell
  /-- `LEN` (R22). -/
  len : Nat
  /-- The wrapper's phase (R46). -/
  phase : Phase
  /-- `RESULT`; `none` when no result stands (R32 to R40, R47). -/
  result : Option Result
  /-- The working registers, flags, stage and relay file (R23 to R31, R42). -/
  work : Work
  /-- A `start` event stands at the block (R46). -/
  start : Bool
  /-- MODEL'S OWN: the operation the presented octets are handed to (log 3). -/
  sel : Op
  /-- MODEL'S OWN: the value the latest component operation returned (log 10). -/
  ret : Option Value
  /-- MODEL'S OWN: how many free values have been drawn (log 6). -/
  draws : Nat
deriving DecidableEq, Repr

/-- An Address record of zeros, the model's reset value for `destination` and `source` (log 5). -/
def Address.zero : Address where
  ch := Vector.replicate 6 0#7
  callLen := 0
  suffix := 0#4
  last := false

/-- The working registers after reset: the relay file has no value (R47); the other values are the model's (logs 5 and 7). -/
def Work.reset : Work where
  stage := .sLen
  crc := 0#16
  n := 0
  pos := 0
  nrel := 0
  a := 0
  fcsOk := false
  flags := ⟨false, false, false⟩
  pidPresent := false
  destination := .zero
  source := .zero
  relay := Vector.replicate 8 none
  control := 0#8
  protocolId := none
  payloadOff := 0
  payloadLen := 0

/-- The machine after reset: `phase = IDLE`, no result stands, no relay entry has a value (R47, R190); the buffer is the host's (log 9). -/
def State.reset : State where
  buf := []
  len := 0
  phase := .idle
  result := none
  work := .reset
  start := false
  sel := .frameDecode
  ret := none
  draws := 0

/-- The working registers replaced. -/
def State.setWork (s : State) (w : Work) : State := { s with work := w }

/-- A component operation's return value. -/
def State.setRet (s : State) (v : Value) : State := { s with ret := some v }

/-- `RESULT <- r` and `phase = DONE`, the end of a call (R46, R159, R175). -/
def State.setResult (s : State) (r : Result) : State := { s with result := some r, phase := .done }

/-- One free value drawn. -/
def State.countDraw (s : State) : State := { s with draws := s.draws + 1 }

/-- The `start` event taken. -/
def State.clearStart (s : State) : State := { s with start := false }

end Sys2Proof.Machine
end

