-- ==== Sys2Proof/Machine/Ops.lean ====
section
/-! DEFINITION. The named operations over the buffer, the relay file and the result record: one-octet reads (R55), the host's writes (R63), how a call ends with a frame or raises an error (R159, R175), and what the host reads of `RESULT` (R32 to R39). -/

namespace Sys2Proof.Machine

open Host (Outcome)

/-- Why a pipeline stage goes no further. -/
inductive Stop where
  /-- A decode error raised (R175). -/
  | raise (e : DecodeError)
  /-- A read out of the buffer (U8). -/
  | fault (f : Fault)
deriving DecidableEq, Repr

/-! The buffer as a list of cells. -/

/-- The octet at an offset; an offset the list does not hold reads as 0x00 (log 8). -/
def Memory.byteAt : List Host.Cell → Nat → Octet
  | [], _ => 0#8
  | (a, b) :: m, x => if x = a then b else Memory.byteAt m x

/-- One octet written, keeping the canonical form. -/
def Memory.write : List Host.Cell → Nat → Octet → List Host.Cell
  | [], x, v => if v = 0#8 then [] else [(x, v)]
  | (a, b) :: m, x, v =>
    if x < a then if v = 0#8 then (a, b) :: m else (x, v) :: (a, b) :: m
    else if x = a then if v = 0#8 then m else (x, v) :: m
    else (a, b) :: Memory.write m x v

/-- The cells of a run of octets whose first stands at offset `x`. -/
def Memory.ofOctets : Nat → List Octet → List Host.Cell
  | _, [] => []
  | x, b :: bs => if b = 0#8 then Memory.ofOctets (x + 1) bs else (x, b) :: Memory.ofOctets (x + 1) bs

/-- Offsets strictly rising from `lo` on, and no entry equal to what an unlisted offset reads as. -/
def Memory.wfFrom : Nat → List Host.Cell → Bool
  | _, [] => true
  | lo, (a, b) :: m => decide (lo ≤ a) && (b != 0#8) && Memory.wfFrom (a + 1) m

/-- The canonical form. -/
def Memory.wf (m : List Host.Cell) : Bool :=
  Memory.wfFrom 0 m

/-- Every listed offset is below `LEN`. -/
def Memory.within (n : Nat) (m : List Host.Cell) : Bool :=
  m.all fun c => decide (c.1 < n)

/-- `MemRead(addr, 1) = BUF[addr]`, the one memory primitive (R15, R55). A read at an offset `>= LEN` faults (U8). -/
def memRead (s : State) (addr : Nat) : Except Stop Octet :=
  if addr < s.len then .ok (Memory.byteAt s.buf addr) else .error (.fault (.bufferRange addr))

/-- `BUF[off .. off + k)` read one octet at a time in ascending offset order (R53). -/
def readSpan (s : State) : Nat → Nat → Except Stop (List Octet)
  | _, 0 => .ok []
  | off, k + 1 => do
    let b ← memRead s off
    let bs ← readSpan s (off + 1) k
    return b :: bs

/-- The octets the host presented, `BUF[0 .. LEN)` (R21). -/
def State.octets (s : State) : List Octet :=
  (List.range s.len).map (Memory.byteAt s.buf)

/-! The host's moves on the buffer. A call lasts from its `start` to the step that takes the event, and the host has no move during it (R197, D11, D22, U6, U7; log 25). -/

/-- The buffer replaced by `(BUF, LEN)`, with `start` and the operation `op`. -/
def State.load (s : State) (op : Op) (bs : List Octet) : State :=
  { s with buf := Memory.ofOctets 0 bs, len := bs.length, sel := op, start := true }

/-- One octet of the buffer replaced. -/
def State.setOctet (s : State) (addr : Nat) (v : Octet) : State :=
  { s with buf := Memory.write s.buf addr v }

/-- The host presents `(BUF, LEN)` with `start` (R46, R192), to the operation `op`. While an earlier `start` stands there is no such move (U7). -/
def State.present (s : State) (op : Op) (bs : List Octet) : Option State :=
  if s.start then none else some (s.load op bs)

/-- The host writes one octet of the buffer it owns (R63, R196). While a `start` stands there is no such move (R197, U6), and an offset outside the buffer is no octet of it. -/
def State.hostWrite (s : State) (addr : Nat) (v : Octet) : Option State :=
  if s.start then none
  else if addr < s.len then some (s.setOctet addr v)
  else none

/-! The relay file. -/

/-- The relay file filled from index 0 upward; the entries from the list's length on have no value (R42). -/
def relayFile (rs : List Address) : Vector (Option Address) 8 :=
  Vector.ofFn fun i => rs[i.val]?

/-- `RELAY[0 .. k-1]` read from the file in order (R35). -/
def relaysOf (file : Vector (Option Address) 8) (k : Nat) : List Address :=
  (file.toList.take k).filterMap id

/-! How a call ends. -/

/-- The working registers after a call: none survives (R31, R175), each holds a free value (log 6); the stage is `S_DONE` (R29) and the relay file is what the call leaves. -/
def State.endCall (s : State) (relay : Vector (Option Address) 8) : State :=
  (s.setWork { Config.freeWork s.draws with relay := relay, stage := .sDone }).countDraw

/-- `raise E` (R175): `RESULT <- Err(E)`, every Frame field without a value (R33), `phase = DONE`, nothing else. It goes to no handler, saves nothing, and there is no return from it: the block is ready for the next `start` (R179). -/
def raiseError (e : DecodeError) (s : State) : State :=
  (s.endCall (relayFile [])).setResult (.err e)

/-- `RESULT <- Ok(Frame)` and `phase = DONE` (R159, R46). -/
def complete (f : Frame) (s : State) : State :=
  (s.endCall (relayFile f.relays)).setResult (.ok f)

/-- A component operation ends with `return v` (R15): its registers written, its value returned. -/
def returnValue (s : State) (w : Work) (v : Value) : Outcome State Fault Refusal :=
  .next ((s.setWork w).setRet v)

/-! What the host reads. -/

/-- The code of an error in `STATUS` (R32, R170). -/
def DecodeError.code : DecodeError → BitVec 3
  | .tooShort => 1#3
  | .checksumMismatch => 2#3
  | .malformedAddressField => 3#3
  | .truncated => 4#3

/-- `STATUS`, 3 bits (R32). -/
def Result.status : Result → BitVec 3
  | .ok _ => 0#3
  | .err e => e.code

/-- The code of `KIND`, 2 bits (R37). -/
def Kind.code : Kind → BitVec 2
  | .information => 0#2
  | .supervisory => 1#2
  | .unnumbered => 3#2

/-- The frame of a result; an error has none (R33). -/
def Result.frame : Result → Option Frame
  | .ok f => some f
  | .err _ => none

/-- `NRELAYS`, 4 bits (R35). -/
def Frame.nrelays (f : Frame) : BitVec 4 :=
  BitVec.ofNat 4 f.relays.length

/-- `PID_PRESENT` (R38). -/
def Frame.pidPresent (f : Frame) : Bool :=
  f.protocolId.isSome

/-- The frame of the standing result, if any. -/
def State.frame (s : State) : Option Frame :=
  s.result.bind Result.frame

/-- `RELAY[k]` as the host reads it, through `RESULT`; from `NRELAYS` on it has no value (R42). -/
def State.relayEntry (s : State) (k : Nat) : Option Address :=
  s.frame.bind fun f => f.relays[k]?

/-- The callsign of an address, `ch[0 .. call_len)` (R41). -/
def Address.callsign (a : Address) : List Char7 :=
  a.ch.toList.take a.callLen

/-- The payload octets through the view of the standing frame (R39, R65), read from the buffer as it stands now, one octet at a time (R196). Right after the call that is the buffer at `start`. MODEL'S CHOICE (log 24): an old view over a buffer presented later reads that buffer's octets, and at an offset `>= LEN` it faults and gives no value (U8, U9). -/
def State.payload (s : State) : Option (Except Stop (List Octet)) :=
  s.frame.map fun f => readSpan s f.payloadOff f.payloadLen

end Sys2Proof.Machine
end

