-- ==== Sys2Proof/Machine/Operands.lean ====
section
/-! DEFINITION. Operand assembly from octets: every field layout of spec/30_encoding.md. -/

namespace Sys2Proof.Machine

/-- The character of a callsign octet: the octet shifted right by one, bit 0 dropped (R73, R121). -/
def callsignChar (o : Octet) : Char7 :=
  o.extractLsb' 1 7

/-- The suffix in bits 4 to 1 of an SSID octet (R74, R123). -/
def ssidSuffix (o : Octet) : BitVec 4 :=
  o.extractLsb' 1 4

/-- The flag `last`, bit 0 of an SSID octet, no inversion (R74, R75, R123). -/
def ssidLast (o : Octet) : Bool :=
  o.getLsbD 0

/-- The received FCS, the low octet first (R51, R79). -/
def fcsWord (l h : Octet) : Word16 :=
  l.zeroExtend 16 ||| (h.zeroExtend 16 <<< 8)

/-- The six characters of a slot (R121). -/
def slotChars (s : Slot) : Vector Char7 6 :=
  #v[callsignChar s.o0, callsignChar s.o1, callsignChar s.o2, callsignChar s.o3, callsignChar s.o4, callsignChar s.o5]

/-- The slot at the cursor of a region; none when fewer than 7 octets remain inside the region (R127). -/
def slotAt (reg : List Octet) (pos : Nat) : Option Slot :=
  match reg.drop pos with
  | o0 :: o1 :: o2 :: o3 :: o4 :: o5 :: o6 :: _ => some ⟨o0, o1, o2, o3, o4, o5, o6⟩
  | _ => none

/-- The octets of a body before its FCS (R104). -/
def fcsCovered (body : List Octet) : List Octet :=
  body.take (body.length - Config.fcsLen)

/-- The received FCS of a body, its last two octets (R79); a shorter body has none. -/
def fcsReceived (body : List Octet) : Option Word16 :=
  match body.drop (body.length - Config.fcsLen) with
  | [l, h] => some (fcsWord l h)
  | _ => none

end Sys2Proof.Machine
end

