-- ==== Sys2Proof/Machine/Flags.lean ====
section
/-! DEFINITION. Every one-bit condition of CORE (R31): the classifier's three flags, `pid_present`, and the test that ends a relay chain. `fcs_ok` is computed with the checksum, `last` with the slot. -/

namespace Sys2Proof.Machine

/-- The three flags of a control octet (R140). -/
def classify (control : Octet) : KindFlags where
  isInformation := control.extractLsb' 0 1 == 0#1
  isSupervisory := control.extractLsb' 0 2 == 1#2
  isUnnumbered := control.extractLsb' 0 2 == 3#2

/-- The frame kind, by which flag is 1 (R140, R155). -/
def kindOf (k : KindFlags) : Kind :=
  if k.isInformation then .information else if k.isSupervisory then .supervisory else .unnumbered

/-- `pid_present` (R143): Information, or Unnumbered with the whole octet equal to `0x03`. -/
def pidSelect (control : Octet) (k : KindFlags) : Bool :=
  k.isInformation || (k.isUnnumbered && control == Config.uiControl)

/-- A relay chain is closed: at least one relay, the last with `last = 1` (R128). -/
def chainClosed (relays : List Address) : Bool :=
  match relays.getLast? with
  | some r => r.last
  | none => false

end Sys2Proof.Machine
end

