-- ==== Sys2Proof/Machine/AddressField.lean ====
section
/-! DEFINITION. The Address Field Decoder: ADDR.SLOT and ADDR.FIELD (spec/41_address.md). -/

namespace Sys2Proof.Machine

open Host (Outcome)

/-- The trim (R122): from `k` downward while `ch[k-1]` is the padding character. -/
def trimLen (ch : Vector Char7 6) : Nat → Nat
  | 0 => 0
  | k + 1 => if ch[k]? = some Config.pad then trimLen ch k else k + 1

/-- `ADDR.SLOT` as a function (R120 to R123). -/
def decodeSlot (s : Slot) : Address where
  ch := slotChars s
  callLen := trimLen (slotChars s) Config.callChars
  suffix := ssidSuffix s.ssid
  last := ssidLast s.ssid

/-- The relay loop (R127) with `k` passes left: leave when fewer than 7 octets remain, after a relay with `last = 1`, or when no pass is left. Gives the cursor and the relays decoded, in order. -/
def relayLoop : Nat → List Octet → Nat → List Address → Nat × List Address
  | 0, _, pos, rs => (pos, rs)
  | k + 1, reg, pos, rs =>
    match slotAt reg pos with
    | none => (pos, rs)
    | some slot =>
      if (decodeSlot slot).last then (pos + Config.slotLen, rs ++ [decodeSlot slot])
      else relayLoop k reg (pos + Config.slotLen) (rs ++ [decodeSlot slot])

/-- The address field walked up to its failure test: the mandatory slots (R126), then the relays (R127); none when the region has fewer than 14 octets (R125). -/
def addrWalk (reg : List Octet) : Option FieldOk :=
  if reg.length < Config.addrMin then none
  else
    match slotAt reg 0, slotAt reg Config.slotLen with
    | some d, some s =>
      let run := if (decodeSlot s).last then (Config.addrMin, []) else relayLoop Config.maxRelays reg Config.addrMin []
      some ⟨decodeSlot d, decodeSlot s, run.2, run.1⟩
    | _, _ => none

/-- `ADDR.FIELD` as a function of the region, `none` its `Error` (R125 to R128). -/
def addrField (reg : List Octet) : Option FieldOk :=
  match addrWalk reg with
  | none => none
  | some f => if f.source.last || chainClosed f.relays then some f else none

/-- `ADDR.FIELD` on the registers: the region's length and the cursors as far as the walk went, and the records and the consumed count only when it does not fail (R24 to R27, R42, R131; log 11). -/
def Work.addrField (w : Work) (reg : List Octet) : Work :=
  match addrWalk reg with
  | none => { w with n := reg.length }
  | some f =>
    let w := { w with n := reg.length, pos := f.consumed, nrel := f.relays.length }
    if f.source.last || chainClosed f.relays then
      { w with a := f.consumed, destination := f.destination, source := f.source, relay := relayFile f.relays }
    else w

/-- ADDR.SLOT (R120): total on every slot. -/
def execAddrSlot (slot : Slot) (s : State) : Outcome State Fault Refusal :=
  returnValue s s.work (.address (decodeSlot slot))

/-- ADDR.FIELD (R125): its `Error` is a value, not an error of the block (R178). -/
def execAddrField (reg : List Octet) (s : State) : Outcome State Fault Refusal :=
  returnValue s (s.work.addrField reg) (.field (addrField reg))

end Sys2Proof.Machine
end

