-- ==== Sys2Proof/Machine/Checksum.lean ====
section
/-! DEFINITION. The Checksum Engine: CRC.INIT, CRC.BYTE, CRC.FINAL, FCS.COMPUTE, FCS.VERIFY (spec/40_fcs.md). -/

namespace Sys2Proof.Machine

open Host (Outcome)

/-- One iteration: the low bit is tested before the shift (R101). -/
def crcIter (crc : Word16) : Word16 :=
  if crc.getLsbD 0 then (crc >>> 1) ^^^ Config.crcPolyR else crc >>> 1

/-- `k` iterations. -/
def crcIters : Nat → Word16 → Word16
  | 0, crc => crc
  | k + 1, crc => crcIters k (crcIter crc)

/-- `CRC.BYTE`: the octet into bits 7 to 0, then eight iterations (R101, R52). -/
def crcByte (crc : Word16) (b : Octet) : Word16 :=
  crcIters 8 (crc ^^^ b.zeroExtend 16)

/-- `CRC.BYTE` over a list, in ascending order (R103). -/
def crcBytes (crc : Word16) (data : List Octet) : Word16 :=
  data.foldl crcByte crc

/-- `CRC.FINAL`: all 16 bits complemented (R102). -/
def crcFinal (crc : Word16) : Word16 :=
  crc ^^^ Config.crcXorOut

/-- `FCS.COMPUTE` as a function (R103). -/
def fcsCompute (data : List Octet) : Word16 :=
  crcFinal (crcBytes Config.crcInit data)

/-- `FCS.VERIFY` as a function (R104). -/
def fcsVerify (body : List Octet) : Bool :=
  if body.length < Config.verifyMin then false
  else fcsReceived body == some (fcsCompute (fcsCovered body))

/-- `FCS.COMPUTE` on the registers: `crc` runs from `CRC.INIT` over the data (R23, R103). -/
def Work.fcsCompute (w : Work) (data : List Octet) : Work :=
  { w with crc := crcBytes Config.crcInit data }

/-- `FCS.VERIFY` on the registers: `fcs_ok`, and `crc` when the body is long enough to be computed over (R23, R31, R104). -/
def Work.fcsVerify (w : Work) (body : List Octet) : Work :=
  if body.length < Config.verifyMin then { w with fcsOk := false }
  else { w.fcsCompute (fcsCovered body) with fcsOk := Sys2Proof.Machine.fcsVerify body }

/-- CRC.INIT (R100). -/
def execCrcInit (s : State) : Outcome State Fault Refusal :=
  .next (s.setWork { s.work with crc := Config.crcInit })

/-- CRC.BYTE (R101). -/
def execCrcByte (b : Octet) (s : State) : Outcome State Fault Refusal :=
  .next (s.setWork { s.work with crc := crcByte s.work.crc b })

/-- CRC.FINAL (R102): the register is read, not written (R23). -/
def execCrcFinal (s : State) : Outcome State Fault Refusal :=
  returnValue s s.work (.fcs (crcFinal s.work.crc))

/-- FCS.COMPUTE (R103). -/
def execFcsCompute (data : List Octet) (s : State) : Outcome State Fault Refusal :=
  returnValue s (s.work.fcsCompute data) (.fcs (fcsCompute data))

/-- FCS.VERIFY (R104): `false` is a value, not an error (R178). -/
def execFcsVerify (body : List Octet) (s : State) : Outcome State Fault Refusal :=
  returnValue s (s.work.fcsVerify body) (.verified (fcsVerify body))

end Sys2Proof.Machine
end

