-- ==== Sys2Proof/Machine/Control.lean ====
section
/-! DEFINITION. The Control-Field Classifier: CTL.CLASSIFY and CTL.PIDSEL (spec/42_control.md). -/

namespace Sys2Proof.Machine

open Host (Outcome)

/-- The control octet read and classified (R154, R155). -/
def Work.takeControl (w : Work) (control : Octet) : Work :=
  { w with control := control, flags := classify control }

/-- `pid_present` from the registers (R156). -/
def Work.selectPid (w : Work) : Work :=
  { w with pidPresent := pidSelect w.control w.flags }

/-- CTL.CLASSIFY (R140): the three flags are written and returned. -/
def execCtlClassify (control : Octet) (s : State) : Outcome State Fault Refusal :=
  returnValue s { s.work with flags := classify control } (.kind (classify control))

/-- CTL.PIDSEL (R143): of the octet and the flags `CTL.CLASSIFY` gives it. -/
def execCtlPidsel (control : Octet) (s : State) : Outcome State Fault Refusal :=
  returnValue s { s.work with pidPresent := pidSelect control (classify control) }
    (.pidPresent (pidSelect control (classify control)))

end Sys2Proof.Machine
end

