-- ==== Sys2Proof/Machine/Frame.lean ====
section
/-! DEFINITION. The Frame Assembler: FRAME.DECODE as the stages of R29, each raising its error or going to the next (R30), in the order that fixes which error is reported (R161). -/

namespace Sys2Proof.Machine

open Host (Outcome)

/-- `S_LEN`, step 1 (R151); on success `n = LEN - 2` (R24). -/
def stageLen (m : Config.Floor) (s : State) (w : Work) : Except Stop Work :=
  if s.len < m.minLen then .error (.raise .tooShort)
  else .ok { w with n := s.len - Config.fcsLen, stage := .sFcs }

/-- `S_FCS`, step 2 (R152): the whole buffer is the body. -/
def stageFcs (s : State) (w : Work) : Except Stop Work := do
  let body ← readSpan s 0 s.len
  if (w.fcsVerify body).fcsOk then .ok { w.fcsVerify body with stage := .sAddr }
  else .error (.raise .checksumMismatch)

/-- `S_ADDR`, step 3 (R153): the region is the buffer without its FCS. -/
def stageAddr (s : State) (w : Work) : Except Stop Work := do
  let reg ← readSpan s 0 w.n
  if (addrField reg).isSome then .ok { w.addrField reg with stage := .sCtl }
  else .error (.raise .malformedAddressField)

/-- `S_CTL`, steps 4 and 5 (R154, R155). -/
def stageCtl (s : State) (w : Work) : Except Stop Work := do
  if w.a ≥ w.n then .error (.raise .truncated)
  else
    let control ← memRead s w.a
    .ok { w.takeControl control with stage := .sPid }

/-- `S_PID`, steps 6 and 7 (R156, R157). -/
def stagePid (s : State) (w : Work) : Except Stop Work := do
  let w := w.selectPid
  if w.pidPresent then
    if w.a + Config.ctlLen ≥ w.n then .error (.raise .truncated)
    else
      let pid ← memRead s (w.a + Config.ctlLen)
      .ok { w with protocolId := some pid, stage := .sPay }
  else .ok { w with protocolId := none, stage := .sPay }

/-- `S_PAY`, step 8 (R158): the view is computed, no octet is read. -/
def stagePay (w : Work) : Work :=
  let off := w.a + Config.ctlLen + (if w.pidPresent then Config.pidLen else 0)
  { w with payloadOff := off, payloadLen := w.n - off, stage := .sDone }

/-- `S_DONE`, step 9 (R159): the frame the registers hold. -/
def frameOf (w : Work) : Frame where
  destination := w.destination
  source := w.source
  relays := relaysOf w.relay w.nrel
  control := w.control
  kind := kindOf w.flags
  protocolId := w.protocolId
  payloadOff := w.payloadOff
  payloadLen := w.payloadLen

/-- The stages from `S_LEN` to `S_DONE`, on the registers as they stand (R29, R30). -/
def pipeline (m : Config.Floor) (s : State) : Except Stop Work := do
  let w ← stageLen m s { s.work with stage := .sLen }
  let w ← stageFcs s w
  let w ← stageAddr s w
  let w ← stageCtl s w
  let w ← stagePid s w
  return stagePay w

/-- FRAME.DECODE under a floor (R150): one atomic step (R19). -/
def frameDecodeAt (m : Config.Floor) (s : State) : Outcome State Fault Refusal :=
  match pipeline m s with
  | .ok w => .next (complete (frameOf w) s)
  | .error (.raise e) => .next (raiseError e s)
  | .error (.fault f) => .fault f

/-- FRAME.DECODE under the floor the hardware is built with (R10, R150). -/
def execFrameDecode (s : State) : Outcome State Fault Refusal :=
  frameDecodeAt Config.floor s

end Sys2Proof.Machine
end

