-- ==== Sys2Proof/Machine/Patterns.lean ====
section
/-! DEFINITION. The seven decodable bit patterns of the opcode table (R81 (b)). A control-octet row is what stage `S_CTL` and the selection of `S_PID` make of a control octet of that row (R76, R140, R143); an octet row gives its field (R73, R74, R79). They are no operations of the block boundary (log 12). -/

namespace Sys2Proof.Machine

open Host (Outcome)

/-- A control octet of a row: kept in the register `control`, classified, and `pid_present` selected. -/
def controlRow (control : Octet) (s : State) : Outcome State Fault Refusal :=
  returnValue s (s.work.takeControl control).selectPid (.kind (classify control))

/-- KIND.I (R76, R140). -/
def execKindI (control : Octet) (s : State) : Outcome State Fault Refusal :=
  controlRow control s

/-- KIND.S (R76, R140). -/
def execKindS (control : Octet) (s : State) : Outcome State Fault Refusal :=
  controlRow control s

/-- KIND.U (R76, R140). -/
def execKindU (control : Octet) (s : State) : Outcome State Fault Refusal :=
  controlRow control s

/-- CTL.UI (R76, R143): a sub-case of KIND.U. -/
def execCtlUi (s : State) : Outcome State Fault Refusal :=
  controlRow Config.uiControl s

/-- CALLSIGN_OCTET (R73). -/
def execCallsignOctet (o : Octet) (s : State) : Outcome State Fault Refusal :=
  returnValue s s.work (.char (callsignChar o))

/-- SSID_OCTET (R74). -/
def execSsidOctet (o : Octet) (s : State) : Outcome State Fault Refusal :=
  returnValue s s.work (.ssid (ssidSuffix o) (ssidLast o))

/-- FCS_FIELD (R79). -/
def execFcsField (l h : Octet) (s : State) : Outcome State Fault Refusal :=
  returnValue s s.work (.fcs (fcsWord l h))

end Sys2Proof.Machine
end

