-- ==== Sys2Proof/Machine/Dispatch.lean ====
section
/-! DEFINITION. The meaning of each instruction, one arm for each row of spec/opcode_table.json. -/

namespace Sys2Proof.Machine

open Host (Outcome)

def exec (i : Instr) (s : State) : Host.Outcome State Fault Refusal :=
  match i with
  | .crcInit => Sys2Proof.Machine.execCrcInit s
  | .crcByte b => Sys2Proof.Machine.execCrcByte b s
  | .crcFinal => Sys2Proof.Machine.execCrcFinal s
  | .fcsCompute data => Sys2Proof.Machine.execFcsCompute data s
  | .fcsVerify body => Sys2Proof.Machine.execFcsVerify body s
  | .addrSlot slot => Sys2Proof.Machine.execAddrSlot slot s
  | .addrField reg => Sys2Proof.Machine.execAddrField reg s
  | .ctlClassify control => Sys2Proof.Machine.execCtlClassify control s
  | .ctlPidsel control => Sys2Proof.Machine.execCtlPidsel control s
  | .frameDecode => Sys2Proof.Machine.execFrameDecode s
  | .kindI control => Sys2Proof.Machine.execKindI control s
  | .kindS control => Sys2Proof.Machine.execKindS control s
  | .kindU control => Sys2Proof.Machine.execKindU control s
  | .ctlUi => Sys2Proof.Machine.execCtlUi s
  | .callsignOctet o => Sys2Proof.Machine.execCallsignOctet o s
  | .ssidOctet o => Sys2Proof.Machine.execSsidOctet o s
  | .fcsField l h => Sys2Proof.Machine.execFcsField l h s

end Sys2Proof.Machine
end

