-- ==== Sys2Proof/Machine/Step.lean ====
section
/-! DEFINITION. One step of the machine: a standing `start` event is taken and the presented operation runs, whole (R19, R46); with no event nothing happens. -/

namespace Sys2Proof.Machine

/-- One step. -/
def step (s : State) : Host.Outcome State Fault Refusal :=
  if s.start then
    match decode s.sel s.octets with
    | .ok i => exec i s.clearStart
    | .error r => .refused (.badRequest r)
  else .next s

/-- The state with the octets of an opcode-table word loaded, with `start`, for the row they are read as, so that the next step runs it (log 16). It stands for a load from outside the machine and is no move of the host. -/
def State.withFetchWord (s : State) (nbits w : Nat) : State :=
  s.load (opOfOctets (tableOctets nbits w)) (operandsOfOctets (tableOctets nbits w))

end Sys2Proof.Machine
end

