-- ==== Sys2Proof/Machine/Reference.lean ====
section
/-! DEFINITION. The steps of FRAME.DECODE put together, as spec/43_frame.md section 3 lists them, over the buffer as a list of octets: a second reading of R151 to R159 that the staged machine is held to. It runs no instruction. -/

namespace Sys2Proof.Machine

/-- The frame of a buffer whose address field is read, from its control octet on (R154 to R159); `n` is the region's length. -/
def referenceTail (buf : List Octet) (n : Nat) (r : FieldOk) : Result :=
  if r.consumed ≥ n then .err .truncated
  else
    let control := buf.getD r.consumed 0#8
    let k := classify control
    let present := k.isInformation || (k.isUnnumbered && control == Config.uiControl)
    if present && decide (r.consumed + 1 ≥ n) then .err .truncated
    else
      let off := r.consumed + 1 + (if present then 1 else 0)
      .ok
        { destination := r.destination, source := r.source, relays := r.relays, control := control
          kind := if k.isInformation then .information else if k.isSupervisory then .supervisory else .unnumbered
          protocolId := if present then some (buf.getD (r.consumed + 1) 0#8) else none
          payloadOff := off, payloadLen := n - off }

/-- `FRAME.DECODE(BUF, LEN)` under a floor (R151 to R159). -/
def referenceDecode (m : Config.Floor) (buf : List Octet) : Result :=
  if buf.length < m.minLen then .err .tooShort
  else if fcsVerify buf = false then .err .checksumMismatch
  else
    match addrField (buf.take (buf.length - Config.fcsLen)) with
    | none => .err .malformedAddressField
    | some r => referenceTail buf (buf.length - Config.fcsLen) r

end Sys2Proof.Machine
end

