-- ==== Sys2Proof/Safety.lean ====
section
/-! DEFINITION. The terms in which claims are made: what an instruction leaves unchanged, the invariant of the machine, and a run of several instructions. -/

namespace Sys2Proof.Machine

open Host (Outcome)

/-- The buffer reads as before at every offset, in range or not. -/
def SameBuffer (s t : State) : Prop :=
  t.len = s.len ∧ ∀ addr, memRead t addr = memRead s addr

/-- The wrapper is as before: phase, result, the buffer, the standing event, the selection and the free-value counter. -/
def SameWrapper (s t : State) : Prop :=
  t.phase = s.phase ∧ t.result = s.result ∧ t.start = s.start ∧ t.sel = s.sel ∧ t.draws = s.draws ∧ SameBuffer s t

/-- `BUF[addr]` as a number. -/
def State.octetAt (s : State) (addr : Nat) : Nat :=
  (Memory.byteAt s.buf addr).toNat

/-- An Address record as a slot can give it (R41): at most 6 characters after the trim, the character before the trim no padding, every character from there on padding. -/
def AddressInv (a : Address) : Prop :=
  a.callLen ≤ 6 ∧ (∀ k, k + 1 = a.callLen → a.ch[k]? ≠ some Config.pad) ∧
    ∀ k, a.callLen ≤ k → k < 6 → a.ch[k]? = some Config.pad

/-- The laws of a successful result (R43, R12, R37, R38). -/
def FrameInv (f : Frame) : Prop :=
  f.relays.length ≤ 8 ∧
  (∀ a ∈ f.destination :: f.source :: f.relays, AddressInv a) ∧
  (f.relays = [] → f.source.last = true) ∧
  (f.relays ≠ [] → f.source.last = false ∧ chainClosed f.relays = true ∧ ∀ r ∈ f.relays.dropLast, r.last = false) ∧
  f.kind = kindOf (classify f.control) ∧
  (f.pidPresent = true ↔ f.control.toNat % 2 = 0 ∨ f.control.toNat = 3) ∧
  f.payloadOff = 15 + 7 * f.relays.length + (if f.pidPresent then 1 else 0)

/-- The invariant: the buffer in canonical form and inside `LEN`; a result stands exactly in phase `DONE` (R46); a standing frame keeps the laws of a successful result (R43); the relay file is filled from index 0 upward (R42). -/
def State.Inv (s : State) : Prop :=
  Memory.wf s.buf = true ∧ Memory.within s.len s.buf = true ∧
  (s.phase = .done ↔ s.result.isSome = true) ∧
  (∀ f, s.frame = some f → FrameInv f) ∧
  ∃ rs : List Address, rs.length ≤ 8 ∧ s.work.relay = relayFile rs

/-- A list of instructions run one after another, stopping at the first that answers no next state. -/
def execAll : List Instr → State → Outcome State Fault Refusal
  | [], s => .next s
  | i :: is, s =>
    match exec i s with
    | .next t => execAll is t
    | .fault f => .fault f
    | .refused r => .refused r

end Sys2Proof.Machine
end

