-- ==== Sys2Proof/Certificates/Slice0/Obligations.lean ====
section
/-! DEFINITION. The statements about CORE, each from the rules its docstring cites. -/

open Sys2Proof Sys2Proof.Machine

/-! Encoding and the step. -/

/-- O1 (R80, R81; D18). Decode and encode agree for every well-formed instruction, at every value of every operand. The selection of the operation beside the octets is the model's (log 3). -/
def Obligations.DecodeEncodeRoundTrip : Prop :=
  ∀ i : Instr, i.wellFormed = true → decode i.op (encode i) = .ok i

/-- O2 (R81). The other direction: what decodes is well formed, is of the selected operation, and is encoded by the octets presented; the buffer of FRAME.DECODE is an operand in memory. -/
def Obligations.DecodedOctetsEncodeBack : Prop :=
  ∀ (op : Op) (bs : List Octet) (i : Instr), decode op bs = .ok i →
    i.op = op ∧ i.wellFormed = true ∧ (op ≠ .frameDecode → encode i = bs)

/-- O3 (R82). No octet is illegal anywhere: FRAME.DECODE accepts every buffer, every slot of 7 octets and every FCS field decodes, every bare octet reads as a well-formed control-octet row of that octet, and bare octets always read as a well-formed instruction (the reading of bare octets is the model's, log 4). -/
def Obligations.NoOctetsAreIllegal : Prop :=
  (∀ bs : List Octet, decode .frameDecode bs = .ok .frameDecode) ∧
  (∀ bs : List Octet, bs.length = 7 → ∃ slot, decode .addrSlot bs = .ok (.addrSlot slot)) ∧
  (∀ l h : Octet, decode .fcsField [l, h] = .ok (.fcsField l h)) ∧
  (∀ c : Octet, ∃ i, decodeOctets [c] = .ok i ∧ i.wellFormed = true ∧ encode i = [c] ∧
    (i = .kindI c ∨ i = .kindS c ∨ i = .kindU c ∨ i = .ctlUi)) ∧
  (∀ bs : List Octet, ∃ i, decodeOctets bs = .ok i ∧ i.wellFormed = true)

/-- O4 (R76, R141). The control-octet rows: which of them an octet fits is decided by its two low bits, and CTL.UI is the one value 0x03. -/
def Obligations.ControlOctetRowsByLowBits : Prop :=
  ∀ c : Octet,
    (decode .kindI [c] = .ok (.kindI c) ↔ c.toNat % 2 = 0) ∧
    (decode .kindS [c] = .ok (.kindS c) ↔ c.toNat % 4 = 1) ∧
    (decode .kindU [c] = .ok (.kindU c) ↔ c.toNat % 4 = 3) ∧
    (decode .ctlUi [c] = .ok .ctlUi ↔ c.toNat = 3)

/-- O5 (R72, R73, R74, R76, R79). A few opcode-table words read as the row they stand for. Their octets are written out from the encodings of spec/30_encoding.md; that a bare word is read as these rows (0xFFFF as CRC.INIT, the value it loads) is the model's choice (log 4), and that its first octet stands in bits 7 to 0 is the model's deduction (log 17). -/
def Obligations.TableWordsDecode : Prop :=
  decodeTableWord 16 0xFFFF = some .crcInit ∧
  decodeTableWord 8 0b10110110 = some (.kindI 0xB6#8) ∧
  decodeTableWord 8 0b10110101 = some (.kindS 0xB5#8) ∧
  decodeTableWord 8 0b00010011 = some (.kindU 0x13#8) ∧
  decodeTableWord 8 0b00000011 = some .ctlUi ∧
  decodeTableWord 16 0xF61B = some (.fcsField 0x1B#8 0xF6#8) ∧
  decodeTableWord 56 0x004040A6A4A082 = some (.addrSlot ⟨0x82#8, 0xA0#8, 0xA4#8, 0xA6#8, 0x40#8, 0x40#8, 0x00#8⟩)

/-- O6 (R46). A step with a standing start event runs the instruction that the presented octets are, with the event taken. R46's start performs FRAME.DECODE; that the step runs whatever operation `sel` names is the model's choice (log 3), as are the step without an event, which changes nothing (log 1), and the refusal by name of octets that are no operand (log 18). -/
def Obligations.StepRunsThePresentedOperation : Prop :=
  ∀ s : State,
    (∀ i, s.start = true → decode s.sel s.octets = .ok i → step s = exec i { s with start := false }) ∧
    (∀ r, s.start = true → decode s.sel s.octets = .error r → step s = .refused (.badRequest r)) ∧
    (s.start = false → step s = .next s)

/-- O7 (R46, R21, R50, R197). Between calls the host can present, and what it presents is what the step runs on: the octets presented are the buffer, octet by octet, and the next step runs the operation they decode to; until then no move can change the buffer or the presentation (O47). R46's start performs FRAME.DECODE; that another operation can be presented is the model's choice (log 3). -/
def Obligations.PresentedOctetsReachTheOperation : Prop :=
  ∀ (s : State) (op : Op) (bs : List Octet), s.start = false →
    ∃ p, s.present op bs = some p ∧ p.octets = bs ∧
      (∀ addr, memRead p addr =
        match bs[addr]? with
        | some b => .ok b
        | none => .error (.fault (.bufferRange addr))) ∧
      ∀ i, decode op bs = .ok i → step p = exec i { p with start := false }

/-! The Checksum Engine. -/

/-- O8 (R100). -/
def Obligations.CrcInitLoadsFFFF : Prop :=
  ∀ s : State, ∃ t, exec .crcInit s = .next t ∧
    t.work = { s.work with crc := 0xFFFF#16 } ∧ t.ret = s.ret ∧ SameWrapper s t

/-- O9 (R101). The register after CRC.BYTE, computed on numbers: XOR into the low bits, then eight times halve, with 0x8408 XORed in when the number was odd; for a fixed octet the map of the register is a bijection. -/
def Obligations.CrcByteRunsEightIterations : Prop :=
  ∀ b : Octet,
    (∀ s : State, ∃ t, exec (.crcByte b) s = .next t ∧
      t.work.crc.toNat =
        (fun c : Nat => if c % 2 = 1 then (c / 2) ^^^ 0x8408 else c / 2)^[8] (s.work.crc.toNat ^^^ b.toNat) ∧
      t.work = { s.work with crc := t.work.crc } ∧ t.ret = s.ret ∧ SameWrapper s t) ∧
    Function.Bijective fun crc => crcByte crc b

/-- O10 (R102, R23). Every bit of the register is complemented in the returned value; the register is only read. -/
def Obligations.CrcFinalComplementsEveryBit : Prop :=
  ∀ s : State, ∃ t v, exec .crcFinal s = .next t ∧ t.ret = some (.fcs v) ∧
    (∀ k, k < 16 → v.getLsbD k = !s.work.crc.getLsbD k) ∧ t.work = s.work ∧ SameWrapper s t

/-- O11 (R103). FCS.COMPUTE is CRC.INIT, then CRC.BYTE of each octet in order, then CRC.FINAL, as instructions; the empty list gives 0x0000; nothing but `crc` and the returned value changes. -/
def Obligations.FcsComputeIsInitBytesFinal : Prop :=
  ∀ (data : List Octet) (s : State), ∃ t v,
    exec (.fcsCompute data) s = .next t ∧
    execAll (.crcInit :: (data.map .crcByte ++ [.crcFinal])) s = .next t ∧
    t.ret = some (.fcs v) ∧ (data = [] → v = 0x0000#16) ∧
    t.work = { s.work with crc := t.work.crc } ∧ SameWrapper s t

/-- O12 (R104, R79). FCS.VERIFY is true exactly when the body has at least 3 octets and the FCS of all but the last two is the value of those two, the first of them the low octet. That no register but `crc` and `fcs_ok` is written, and `crc` not for a body below 3 octets, is the model's deduction (log 23). -/
def Obligations.FcsVerifyComparesLowOctetFirst : Prop :=
  ∀ (body : List Octet) (s : State), ∃ t ok,
    exec (.fcsVerify body) s = .next t ∧ t.ret = some (.verified ok) ∧ t.work.fcsOk = ok ∧
    (ok = true ↔ 3 ≤ body.length ∧
      (fcsCompute (body.take (body.length - 2))).toNat =
        (body.getD (body.length - 2) 0#8).toNat + 256 * (body.getD (body.length - 1) 0#8).toNat) ∧
    t.work = { s.work with crc := t.work.crc, fcsOk := ok } ∧
    (body.length < 3 → t.work.crc = s.work.crc) ∧ SameWrapper s t

/-- O13 (R107). The residue form: a body of at least 3 octets verifies exactly when CRC.BYTE over all of it from CRC.INIT leaves 0xF0B8. -/
def Obligations.ResidueFormVerifies : Prop :=
  ∀ body : List Octet, 3 ≤ body.length →
    (fcsVerify body = true ↔ crcBytes 0xFFFF#16 body = 0xF0B8#16)

/-- O14 (R109, R172). A single bit flipped by the host, between calls, in the octets the FCS covers, in a buffer whose FCS was right: the decode reports ChecksumMismatch, with certainty. -/
def Obligations.FlippedBitGivesChecksumMismatch : Prop :=
  ∀ (m : Config.Floor) (s : State) (addr bit : Nat),
    s.start = false → Memory.wf s.buf = true → m.minLen ≤ s.len → fcsVerify s.octets = true → addr + 2 < s.len → bit < 8 →
    ∃ u t, s.hostWrite addr (Memory.byteAt s.buf addr ^^^ (1#8 <<< bit)) = some u ∧ frameDecodeAt m u = .next t ∧
      t.result = some (.err .checksumMismatch)

/-! The Address Field Decoder. -/

/-- O15 (R120 to R123). The record ADDR.SLOT returns, by arithmetic on the octets; the trimmed length is the largest one whose last character is no padding. -/
def Obligations.AddrSlotRecord : Prop :=
  ∀ (slot : Slot) (s : State), ∃ t a, exec (.addrSlot slot) s = .next t ∧ t.ret = some (.address a) ∧
    (∀ k, k < 6 → (a.ch[k]?.map BitVec.toNat) =
      ([slot.o0, slot.o1, slot.o2, slot.o3, slot.o4, slot.o5][k]?.map fun o => o.toNat / 2)) ∧
    a.callLen ≤ 6 ∧ (∀ k, k + 1 = a.callLen → a.ch[k]? ≠ some 0x20#7) ∧
    (∀ k, a.callLen ≤ k → k < 6 → a.ch[k]? = some 0x20#7) ∧
    a.suffix.toNat = slot.ssid.toNat / 2 % 16 ∧ (a.last = true ↔ slot.ssid.toNat % 2 = 1) ∧
    t.work = s.work ∧ SameWrapper s t

/-- O16 (R83). Two slots that differ only in ignored bits give equal records: bit 0 of the callsign octets and bits 7 to 5 of the SSID octet have no effect. -/
def Obligations.IgnoredBitsChangeNoRecord : Prop :=
  ∀ p q : Slot,
    p.o0.toNat / 2 = q.o0.toNat / 2 → p.o1.toNat / 2 = q.o1.toNat / 2 → p.o2.toNat / 2 = q.o2.toNat / 2 →
    p.o3.toNat / 2 = q.o3.toNat / 2 → p.o4.toNat / 2 = q.o4.toNat / 2 → p.o5.toNat / 2 = q.o5.toNat / 2 →
    p.ssid.toNat % 32 = q.ssid.toNat % 32 → decodeSlot p = decodeSlot q

/-- O17 (R125, R128). ADDR.FIELD always answers, and fails exactly when the region has fewer than 14 octets, or the source has `last = 0` and none of the relay slots that fit, up to eight, has `last = 1`. What it returns is `addrField reg`, whose records O18 and O19 give. -/
def Obligations.AddrFieldFailsExactly : Prop :=
  ∀ (reg : List Octet) (s : State), ∃ t r, exec (.addrField reg) s = .next t ∧ t.ret = some (.field r) ∧ r = addrField reg ∧
    (r = none ↔ reg.length < 14 ∨
      ((reg.getD 13 0#8).toNat % 2 = 0 ∧
        ∀ k, k < 8 → 21 + 7 * k ≤ reg.length → (reg.getD (20 + 7 * k) 0#8).toNat % 2 = 0)) ∧
    SameWrapper s t

/-- O18 (R126, R127, R129). The records ADDR.FIELD returns: the two mandatory slots, then the relay slots in order, up to the first with `last = 1` and never more than eight; the consumed count is 14 plus 7 per relay and stays inside the region. -/
def Obligations.AddrFieldRecords : Prop :=
  ∀ (reg : List Octet) (f : FieldOk), addrField reg = some f →
    (slotAt reg 0).map decodeSlot = some f.destination ∧ (slotAt reg 7).map decodeSlot = some f.source ∧
    (∀ k, k < f.relays.length → (slotAt reg (14 + 7 * k)).map decodeSlot = f.relays[k]?) ∧
    f.relays.length ≤ 8 ∧ f.consumed = 14 + 7 * f.relays.length ∧ f.consumed ≤ reg.length ∧
    (f.source.last = true ↔ f.relays = []) ∧
    (∀ k r, f.relays[k]? = some r → (r.last = true ↔ k + 1 = f.relays.length))

/-- O19 (R131). The footprint: ADDR.FIELD's result does not depend on any octet from the consumed count on, given the region's length. -/
def Obligations.AddrFieldReadsOnlyItsFootprint : Prop :=
  ∀ (reg reg' : List Octet) (f : FieldOk), addrField reg = some f → reg'.length = reg.length →
    reg'.take f.consumed = reg.take f.consumed → addrField reg' = some f

/-- O20 (R24 to R27, R42, R131). What ADDR.FIELD writes: `n` is the region's length; when it succeeds `pos` and `A` are the consumed count, `nrel` the number of relays, the relay file is filled from index 0 upward; when it fails no record and no `A` is written (the model's reading, log 11). -/
def Obligations.AddrFieldRegisters : Prop :=
  ∀ (reg : List Octet) (s t : State), exec (.addrField reg) s = .next t →
    t.work.n = reg.length ∧
    (∀ f, addrField reg = some f →
      t.work = { s.work with n := reg.length, pos := 14 + 7 * f.relays.length, nrel := f.relays.length, a := f.consumed, destination := f.destination, source := f.source, relay := t.work.relay } ∧
      ∀ k, k < 8 → t.work.relay[k]? = some f.relays[k]?) ∧
    (addrField reg = none →
      t.work = { s.work with n := reg.length, pos := t.work.pos, nrel := t.work.nrel } ∧
      (reg.length < 14 → t.work.pos = s.work.pos ∧ t.work.nrel = s.work.nrel) ∧
      (14 ≤ reg.length → t.work.pos = 14 + 7 * t.work.nrel ∧ t.work.nrel = min 8 ((reg.length - 14) / 7)))

/-! The Control-Field Classifier and the bit patterns. -/

/-- O21 (R140). The three flags by the octet's value, exactly one of them true, and the kind by which one it is; no other register changes. -/
def Obligations.CtlClassifyFlags : Prop :=
  ∀ (c : Octet) (s : State), ∃ t k, exec (.ctlClassify c) s = .next t ∧ t.ret = some (.kind k) ∧
    (k.isInformation = true ↔ c.toNat % 2 = 0) ∧ (k.isSupervisory = true ↔ c.toNat % 4 = 1) ∧
    (k.isUnnumbered = true ↔ c.toNat % 4 = 3) ∧
    (k = ⟨true, false, false⟩ ∨ k = ⟨false, true, false⟩ ∨ k = ⟨false, false, true⟩) ∧
    (kindOf k = .information ↔ k.isInformation = true) ∧ (kindOf k = .supervisory ↔ k.isSupervisory = true) ∧
    (kindOf k = .unnumbered ↔ k.isUnnumbered = true) ∧
    t.work = { s.work with flags := k } ∧ SameWrapper s t

/-- O22 (R143). `pid_present` for the even octets and for 0x03, for no other. -/
def Obligations.CtlPidselFlag : Prop :=
  ∀ (c : Octet) (s : State), ∃ t p, exec (.ctlPidsel c) s = .next t ∧ t.ret = some (.pidPresent p) ∧
    (p = true ↔ c.toNat % 2 = 0 ∨ c.toNat = 3) ∧ t.work = { s.work with pidPresent := p } ∧ SameWrapper s t

/-- O23 (R76, R140, R143). The control-octet rows: a well-formed row octet is kept in `control`, and its flags and `pid_present` are those of its row; that a row is run at all is the model's choice (log 12). -/
def Obligations.ControlRowsClassify : Prop :=
  ∀ (c : Octet) (s : State),
    ((Instr.kindI c).wellFormed = true → ∃ t, exec (.kindI c) s = .next t ∧ SameWrapper s t ∧
      t.ret = some (.kind ⟨true, false, false⟩) ∧
      t.work = { s.work with control := c, flags := ⟨true, false, false⟩, pidPresent := true }) ∧
    ((Instr.kindS c).wellFormed = true → ∃ t, exec (.kindS c) s = .next t ∧ SameWrapper s t ∧
      t.ret = some (.kind ⟨false, true, false⟩) ∧
      t.work = { s.work with control := c, flags := ⟨false, true, false⟩, pidPresent := false }) ∧
    ((Instr.kindU c).wellFormed = true → ∃ t, exec (.kindU c) s = .next t ∧ SameWrapper s t ∧
      t.ret = some (.kind ⟨false, false, true⟩) ∧
      t.work = { s.work with control := c, flags := ⟨false, false, true⟩, pidPresent := decide (c.toNat = 3) }) ∧
    (∃ t, exec .ctlUi s = .next t ∧ SameWrapper s t ∧ t.ret = some (.kind ⟨false, false, true⟩) ∧
      t.work = { s.work with control := 0x03#8, flags := ⟨false, false, true⟩, pidPresent := true })

/-- O24 (R73, R74, R79). The octet rows give their fields: the character above bit 0, the suffix in bits 4 to 1 and `last` in bit 0, the FCS low octet first; no register changes. -/
def Obligations.OctetRowsGiveTheirFields : Prop :=
  ∀ (o h : Octet) (s : State),
    (∃ t ch, exec (.callsignOctet o) s = .next t ∧ t.ret = some (.char ch) ∧ ch.toNat = o.toNat / 2 ∧
      t.work = s.work ∧ SameWrapper s t) ∧
    (∃ t sf l, exec (.ssidOctet o) s = .next t ∧ t.ret = some (.ssid sf l) ∧ sf.toNat = o.toNat / 2 % 16 ∧
      (l = true ↔ o.toNat % 2 = 1) ∧ t.work = s.work ∧ SameWrapper s t) ∧
    (∃ t v, exec (.fcsField o h) s = .next t ∧ t.ret = some (.fcs v) ∧ v.toNat = o.toNat + 256 * h.toNat ∧
      t.work = s.work ∧ SameWrapper s t)

/-! The Frame Assembler. -/

/-- O25 (R164, R46, R56). FRAME.DECODE is total: from every state it ends with exactly one result, in phase DONE, with the buffer and the presentation as before. That the stage is then S_DONE, after an error too, that the value returned by an earlier component operation stays and that one free value is drawn are the model's (logs 7, 10 and 6). -/
def Obligations.FrameDecodeAlwaysEnds : Prop :=
  ∀ s : State, ∃ t r, exec .frameDecode s = .next t ∧ t.result = some r ∧ t.phase = .done ∧
    t.work.stage = .sDone ∧ t.ret = s.ret ∧ t.start = s.start ∧ t.sel = s.sel ∧ t.draws = s.draws + 1 ∧ SameBuffer s t

/-- O26 (R151 to R159, R10). The staged machine gives the result of the listing of spec/43_frame.md section 3, under both floors; the instruction runs under the floor 17. -/
def Obligations.FrameDecodeMeetsTheListing : Prop :=
  ∀ (m : Config.Floor) (s : State), ∃ t, frameDecodeAt m s = .next t ∧ t.result = some (referenceDecode m s.octets) ∧
    exec .frameDecode s = frameDecodeAt .spec17 s

/-- O27 (R171). -/
def Obligations.TooShortExactlyBelowTheFloor : Prop :=
  ∀ (m : Config.Floor) (s : State), ∃ t, frameDecodeAt m s = .next t ∧
    (t.result = some (.err .tooShort) ↔ s.len < m.minLen)

/-- O28 (R172, R161). ChecksumMismatch is reported exactly when the buffer reaches the floor and the FCS of its first `LEN - 2` octets is not the value of the last two, whatever the address field is. -/
def Obligations.ChecksumMismatchExactly : Prop :=
  ∀ (m : Config.Floor) (s : State), ∃ t, frameDecodeAt m s = .next t ∧
    (t.result = some (.err .checksumMismatch) ↔ m.minLen ≤ s.len ∧
      (fcsCompute (s.octets.take (s.len - 2))).toNat ≠ s.octetAt (s.len - 2) + 256 * s.octetAt (s.len - 1))

/-- O29 (R173, R163). MalformedAddressField is reported exactly when the first two tests pass, the source slot has `last = 0`, and no relay slot inside the region, up to the eighth, has `last = 1`; fewer than 14 octets is no cause here. -/
def Obligations.MalformedAddressFieldExactly : Prop :=
  ∀ (m : Config.Floor) (s : State), ∃ t, frameDecodeAt m s = .next t ∧
    (t.result = some (.err .malformedAddressField) ↔ m.minLen ≤ s.len ∧ fcsVerify s.octets = true ∧
      s.octetAt 13 % 2 = 0 ∧ ∀ k, k < 8 → 23 + 7 * k ≤ s.len → s.octetAt (20 + 7 * k) % 2 = 0)

/-- O30 (R174). Truncated is reported exactly when the first three tests pass and the octet after the address field, or a protocol identifier that the control octet calls for, is not inside the region. -/
def Obligations.TruncatedExactly : Prop :=
  ∀ (m : Config.Floor) (s : State), ∃ t, frameDecodeAt m s = .next t ∧
    (t.result = some (.err .truncated) ↔ m.minLen ≤ s.len ∧ fcsVerify s.octets = true ∧
      ∃ f, addrField (s.octets.take (s.len - 2)) = some f ∧
        (s.len ≤ f.consumed + 2 ∨
          (s.len = f.consumed + 3 ∧ (s.octetAt f.consumed % 2 = 0 ∨ s.octetAt f.consumed = 3))))

/-- O31 (R34 to R39, R42, R143). Every field of a decoded frame, in offsets of the buffer, the payload read through the view right after the call, and the relay file. The code of the kind is the spec's own coding of an inductive type (log 20); that the relay file holds the relays beside RESULT is the model's (log 14). -/
def Obligations.DecodedFrameFields : Prop :=
  ∀ (m : Config.Floor) (s t : State) (f : Frame), frameDecodeAt m s = .next t → t.result = some (.ok f) →
    let a := 14 + 7 * f.relays.length
    (slotAt s.octets 0).map decodeSlot = some f.destination ∧ (slotAt s.octets 7).map decodeSlot = some f.source ∧
    (∀ k, k < f.relays.length → (slotAt s.octets (14 + 7 * k)).map decodeSlot = f.relays[k]?) ∧
    f.nrelays.toNat = f.relays.length ∧ f.relays.length ≤ 8 ∧
    memRead s a = .ok f.control ∧
    (f.kind.code.toNat = if f.control.toNat % 2 = 1 then f.control.toNat % 4 else 0) ∧
    (f.pidPresent = true ↔ f.control.toNat % 2 = 0 ∨ f.control.toNat = 3) ∧
    (∀ p, f.protocolId = some p → memRead s (a + 1) = .ok p) ∧
    f.payloadOff = a + 1 + (if f.pidPresent then 1 else 0) ∧
    f.payloadOff + f.payloadLen + 2 = s.len ∧
    t.payload = some (.ok ((s.octets.drop f.payloadOff).take f.payloadLen)) ∧
    ∀ k, k < 8 → t.work.relay[k]? = some f.relays[k]?

/-- O32 (R43, R162). The laws of a successful result: relay count, trimmed lengths, the chain flags, and the size of the buffer it came from. -/
def Obligations.SuccessfulResultLaws : Prop :=
  ∀ (m : Config.Floor) (s t : State) (f : Frame), frameDecodeAt m s = .next t → t.result = some (.ok f) →
    f.relays.length ≤ 8 ∧ (∀ a ∈ f.destination :: f.source :: f.relays, a.callLen ≤ 6 ∧ a.suffix.toNat ≤ 15) ∧
    (f.relays = [] → f.source.last = true) ∧
    (f.relays ≠ [] → f.source.last = false ∧ ∀ k r, f.relays[k]? = some r → (r.last = true ↔ k + 1 = f.relays.length)) ∧
    17 + 7 * f.relays.length + (if f.pidPresent then 1 else 0) ≤ s.len ∧
    15 ≤ f.payloadOff ∧ f.payloadOff ≤ 72

/-- O33 (R175, R33, R32, R170, R178). An error writes `RESULT <- Err(E)`, with no Frame field and no relay entry of any value, sets phase DONE and leaves the buffer as it was; STATUS is its code, 1 to 4, and 0 for a frame. That the relay file, held beside RESULT, is emptied and that the value returned by an earlier component operation stays are the model's (logs 14 and 10). -/
def Obligations.ErrorLeavesOnlyItsStatus : Prop :=
  ∀ (m : Config.Floor) (s t : State) (r : Result), frameDecodeAt m s = .next t → t.result = some r →
    (∀ e, r = .err e → t.phase = .done ∧ t.frame = none ∧ t.payload = none ∧ (∀ k, t.relayEntry k = none) ∧
      (∀ k, k < 8 → t.work.relay[k]? = some none) ∧ t.start = s.start ∧ t.sel = s.sel ∧ t.ret = s.ret ∧ SameBuffer s t) ∧
    r.status.toNat ≤ 4 ∧ (r.status = 0#3 ↔ ∃ f, r = .ok f) ∧ (r.status = 1#3 ↔ r = .err .tooShort) ∧
    (r.status = 2#3 ↔ r = .err .checksumMismatch) ∧ (r.status = 3#3 ↔ r = .err .malformedAddressField) ∧
    (r.status = 4#3 ↔ r = .err .truncated)

/-- O34 (R160). The two floors differ only at 16 octets: there 17 gives TooShort, and 16 gives the error of the step that fails, never a frame. -/
def Obligations.FloorsDifferOnlyAtSixteen : Prop :=
  ∀ s : State, ∃ t u, frameDecodeAt .spec17 s = .next t ∧ frameDecodeAt .repo16 s = .next u ∧
    (s.len ≠ 16 → u.result = t.result) ∧
    (s.len = 16 → t.result = some (.err .tooShort) ∧
      u.result = some (.err (if fcsVerify s.octets = false then .checksumMismatch
        else if s.octetAt 13 % 2 = 0 then .malformedAddressField else .truncated)))

/-- O35 (R20, R45). A decode reads nothing an earlier call left: two states with the same buffer, whatever their registers, results and phases, decode to the same result. The clause on the relay file, held beside RESULT, is the model's (log 14). -/
def Obligations.DecodeIgnoresHistory : Prop :=
  ∀ (m : Config.Floor) (s s' : State), SameBuffer s s' →
    ∃ t t', frameDecodeAt m s = .next t ∧ frameDecodeAt m s' = .next t' ∧
      t'.result = t.result ∧ t'.phase = t.phase ∧ t'.work.relay = t.work.relay

/-- O36 (R181, R179). No sticky state: after any step, a decode that ended in an error or a frame among them, a buffer can be presented, and its decode gives the result it gives as the first call after reset. -/
def Obligations.EveryCallIsLikeTheFirst : Prop :=
  ∀ (s t : State) (bs : List Octet), step s = .next t →
    ∃ p q u v, t.present .frameDecode bs = some p ∧ State.reset.present .frameDecode bs = some q ∧
      step p = .next u ∧ step q = .next v ∧ u.result = v.result ∧ u.phase = v.phase ∧ u.start = false

/-- O37 (R63, R65, R196). After a call the host's write changes no result, but the payload view reads the new octet at that place. -/
def Obligations.PayloadViewFollowsTheBuffer : Prop :=
  ∀ (s t : State) (f : Frame) (k : Nat) (v : Octet), Memory.wf s.buf = true →
    s.start = false → exec .frameDecode s = .next t → t.result = some (.ok f) → k < f.payloadLen →
    ∃ u p, t.hostWrite (f.payloadOff + k) v = some u ∧ u.result = t.result ∧
      t.payload = some (.ok p) ∧ p.length = f.payloadLen ∧ u.payload = some (.ok (p.set k v))

/-! The whole machine. -/

/-- O38 (R55, R56, R167). CORE never writes the buffer, whatever it executes. -/
def Obligations.NoInstructionWritesTheBuffer : Prop :=
  ∀ (i : Instr) (s t : State), exec i s = .next t → SameBuffer s t

/-- O39 (R31, R46, R178). Only FRAME.DECODE writes RESULT and phase: a component operation that fails raises no error of the block. -/
def Obligations.ComponentsRaiseNoError : Prop :=
  ∀ (i : Instr) (s : State), i ≠ .frameDecode → ∃ t, exec i s = .next t ∧ SameWrapper s t

/-- O40 (R55, R183, R30). No step faults, and a step that a host can cause, with FRAME.DECODE presented or no event standing, answers a next state. -/
def Obligations.StepsNeverFault : Prop :=
  ∀ s : State, (∀ r, step s ≠ .fault r) ∧ (s.sel = .frameDecode ∨ s.start = false → ∃ t, step s = .next t)

/-- O41. The invariant is kept by every step: the buffer's canonical form (log 8), the result standing exactly in phase DONE (R46), the laws of a successful result (R43), the relay file filled from index 0 upward (R42). -/
def Obligations.StepKeepsTheInvariant : Prop :=
  ∀ s t : State, s.Inv → step s = .next t → t.Inv

/-- O42. The invariant holds at reset. -/
def Obligations.ResetMeetsTheInvariant : Prop :=
  State.reset.Inv

/-- O43 (R47, R190). Reset: phase IDLE, no result stands, no relay entry has a value, and reset influences no decode: the first call gives the listing's result. -/
def Obligations.ResetIsIdleWithoutResult : Prop :=
  State.reset.phase = .idle ∧ State.reset.result = none ∧ (∀ k, k < 8 → State.reset.work.relay[k]? = some none) ∧
  ∀ bs : List Octet, ∃ p t, State.reset.present .frameDecode bs = some p ∧ step p = .next t ∧
    t.result = some (referenceDecode Config.floor bs)

/-- O44 (R29, R30, R166). Each stage raises its own error or goes to the next stage of the list, and raises nothing else, whatever the registers hold, as long as `n` is inside the buffer. -/
def Obligations.StagesRaiseOrGoToTheNext : Prop :=
  ∀ (m : Config.Floor) (s : State) (w : Work), w.n ≤ s.len →
    (stageLen m s w = .error (.raise .tooShort) ∨ ∃ w', stageLen m s w = .ok w' ∧ w'.stage = .sFcs ∧ w'.n + 2 = s.len) ∧
    (stageFcs s w = .error (.raise .checksumMismatch) ∨ ∃ w', stageFcs s w = .ok w' ∧ w'.stage = .sAddr ∧ w'.n = w.n) ∧
    (stageAddr s w = .error (.raise .malformedAddressField) ∨
      ∃ w', stageAddr s w = .ok w' ∧ w'.stage = .sCtl ∧ w'.n = w.n ∧ w'.a ≤ w'.n) ∧
    (stageCtl s w = .error (.raise .truncated) ∨
      ∃ w', stageCtl s w = .ok w' ∧ w'.stage = .sPid ∧ w'.n = w.n ∧ memRead s w.a = .ok w'.control) ∧
    (stagePid s w = .error (.raise .truncated) ∨ ∃ w', stagePid s w = .ok w' ∧ w'.stage = .sPay ∧ w'.n = w.n) ∧
    (stagePay w).stage = .sDone

/-- O45 (R46, R63; the moves are the model's deduction, log 22). The host's moves keep the invariant, so that with O41 and O42 it holds in every state reached from reset by moves and steps. -/
def Obligations.HostMovesKeepTheInvariant : Prop :=
  ∀ s : State, s.Inv →
    (∀ (op : Op) (bs : List Octet) (t : State), s.present op bs = some t → t.Inv) ∧
    ∀ (addr : Nat) (v : Octet) (t : State), s.hostWrite addr v = some t → t.Inv

/-- O46 (U8, U9; the model's choice, log 24). The payload read through a standing frame's view gives octets exactly when the view lies inside the buffer that stands now, those of that buffer; else the read faults at the first offset outside it. -/
def Obligations.PayloadReadStaysInsideTheBuffer : Prop :=
  ∀ (s : State) (f : Frame), s.frame = some f →
    (f.payloadOff + f.payloadLen ≤ s.len → s.payload = some (.ok ((s.octets.drop f.payloadOff).take f.payloadLen))) ∧
    (0 < f.payloadLen → s.len < f.payloadOff + f.payloadLen →
      s.payload = some (.error (.fault (.bufferRange (max f.payloadOff s.len)))))

/-- O47 (R197, R63, R46; U6, U7). The host moves only between calls: while a `start` stands there is no presentation and no write, so the call runs on the buffer as it stood at `start`; with none standing every buffer can be presented and every octet of the buffer written, and every step that answers a next state leaves none standing. A move changes nothing but the buffer and the presentation, a write nothing but its octet. That a call lasts from `start` to the step that takes it is the model's deduction (logs 1 and 25). -/
def Obligations.HostMovesOnlyBetweenCalls : Prop :=
  (∀ (s : State) (op : Op) (bs : List Octet), s.present op bs = none ↔ s.start = true) ∧
  (∀ (s : State) (addr : Nat) (v : Octet), s.hostWrite addr v = none ↔ s.start = true ∨ s.len ≤ addr) ∧
  (∀ s t : State, step s = .next t → t.start = false) ∧
  (∀ (s t : State) (op : Op) (bs : List Octet), s.present op bs = some t →
    t.start = true ∧ t.sel = op ∧ t.phase = s.phase ∧ t.result = s.result ∧ t.work = s.work ∧ t.ret = s.ret ∧ t.draws = s.draws) ∧
  ∀ (s t : State) (addr : Nat) (v : Octet), Memory.wf s.buf = true → s.hostWrite addr v = some t →
    t.start = false ∧ t.sel = s.sel ∧ t.phase = s.phase ∧ t.result = s.result ∧ t.work = s.work ∧ t.ret = s.ret ∧ t.draws = s.draws ∧
    t.len = s.len ∧ ∀ a, memRead t a = if a = addr then .ok v else memRead s a
end

