-- ==== Sys2Proof/Laws/AddressField.lean ====
section
/-! SUPPORT. The address decoder's laws: what a slot and the trim give, and once everything the relay loop can do. -/

namespace Sys2Proof.Machine

/-- The trim stays within its start, stops after a character that is no padding, and drops only padding (R122). -/
theorem trimLen_spec (ch : Vector Char7 6) : ∀ k : Nat, trimLen ch k ≤ k ∧
    (∀ j, j + 1 = trimLen ch k → ch[j]? ≠ some Config.pad) ∧
    ∀ j, trimLen ch k ≤ j → j < k → ch[j]? = some Config.pad
  | 0 => ⟨Nat.le_refl 0, fun _ h => absurd h (Nat.succ_ne_zero _), fun _ _ h => absurd h (Nat.not_lt_zero _)⟩
  | k + 1 => by
    obtain ⟨hle, hne, hpad⟩ := trimLen_spec ch k
    by_cases h : ch[k]? = some Config.pad
    · simp only [trimLen, h, if_true]
      refine ⟨by omega, hne, fun j hj hk => ?_⟩
      rcases Nat.lt_succ_iff_lt_or_eq.mp hk with hlt | rfl
      · exact hpad j hj hlt
      · exact h
    · simp only [trimLen, h, if_false]
      refine ⟨Nat.le_refl _, fun j hj => ?_, fun j hj hk => absurd hk (by omega)⟩
      obtain rfl : j = k := by omega
      exact h

/-- The character of an octet as a number (R121). -/
theorem callsignChar_toNat (o : Octet) : (callsignChar o).toNat = o.toNat / 2 := by
  have := o.isLt
  simp only [callsignChar, BitVec.extractLsb'_toNat, Nat.shiftRight_eq_div_pow]
  omega

/-- The suffix of an SSID octet as a number (R123). -/
theorem ssidSuffix_toNat (o : Octet) : (ssidSuffix o).toNat = o.toNat / 2 % 16 := by
  simp only [ssidSuffix, BitVec.extractLsb'_toNat, Nat.shiftRight_eq_div_pow]

/-- The flag `last` is bit 0 of the SSID octet (R75). -/
theorem ssidLast_iff (o : Octet) : ssidLast o = true ↔ o.toNat % 2 = 1 := by
  simp [ssidLast, BitVec.getLsbD]

/-- The slot at a cursor: the next seven octets when they are inside the region, else none (R127). -/
theorem slotAt_eq (reg : List Octet) (pos : Nat) : slotAt reg pos =
    if pos + 7 ≤ reg.length then
      some ⟨reg.getD pos 0#8, reg.getD (pos + 1) 0#8, reg.getD (pos + 2) 0#8, reg.getD (pos + 3) 0#8,
        reg.getD (pos + 4) 0#8, reg.getD (pos + 5) 0#8, reg.getD (pos + 6) 0#8⟩
    else none := by
  have hget : ∀ i, reg.getD (pos + i) 0#8 = (reg.drop pos).getD i 0#8 := fun i => by
    simp [List.getD_eq_getElem?_getD]
  have hlen : (reg.drop pos).length = reg.length - pos := List.length_drop
  unfold slotAt
  split
  · rename_i o0 o1 o2 o3 o4 o5 o6 rest heq
    rw [heq] at hlen
    simp only [List.length_cons] at hlen
    have h0 := hget 0
    rw [Nat.add_zero] at h0
    simp only [show pos + 7 ≤ reg.length by omega, if_true, h0, hget, heq]
    rfl
  · rename_i hno
    rw [if_neg]
    intro hle
    match hd : reg.drop pos, hlen with
    | [], h | [_], h | [_, _], h | [_, _, _], h | [_, _, _, _], h | [_, _, _, _, _], h | [_, _, _, _, _, _], h =>
      simp at h; omega
    | _ :: _ :: _ :: _ :: _ :: _ :: _ :: _, _ => exact hno _ _ _ _ _ _ _ _ hd

theorem slotAt_isSome_iff (reg : List Octet) (pos : Nat) : (slotAt reg pos).isSome = true ↔ pos + 7 ≤ reg.length := by
  rw [slotAt_eq]; split <;> simp_all

theorem slotAt_eq_none_iff (reg : List Octet) (pos : Nat) : slotAt reg pos = none ↔ reg.length < pos + 7 := by
  rw [slotAt_eq]; split <;> simp_all

/-- The flag of the slot at a cursor is bit 0 of its seventh octet. -/
theorem slotAt_last {reg : List Octet} {pos : Nat} {slot : Slot} (h : slotAt reg pos = some slot) :
    (decodeSlot slot).last = true ↔ (reg.getD (pos + 6) 0#8).toNat % 2 = 1 := by
  rw [slotAt_eq] at h
  split at h
  · cases h; exact ssidLast_iff _
  · cases h

/-- A slot depends only on the octets up to its end. -/
theorem slotAt_congr {reg reg' : List Octet} {pos m : Nat} (hl : reg'.length = reg.length)
    (ht : reg'.take m = reg.take m) (h : pos + 7 ≤ m) : slotAt reg' pos = slotAt reg pos := by
  have hget : ∀ i, i < m → reg'.getD i 0#8 = reg.getD i 0#8 := fun i hi => by
    have := congrArg (fun l => l.getD i 0#8) ht
    simpa [List.getD_eq_getElem?_getD, List.getElem?_take, hi] using this
  simp only [slotAt_eq, hl, hget pos (by omega), hget (pos + 1) (by omega), hget (pos + 2) (by omega),
    hget (pos + 3) (by omega), hget (pos + 4) (by omega), hget (pos + 5) (by omega), hget (pos + 6) (by omega)]

theorem chainClosed_nil : chainClosed [] = false := rfl

theorem chainClosed_append_singleton (rs : List Address) (r : Address) : chainClosed (rs ++ [r]) = r.last := by
  simp [chainClosed]

/-- Everything the relay loop can do (R127, R129): it appends the relays it decodes, in order, at most `k` of them, moving the cursor 7 octets for each; only the last of them may have `last = 1`; and when none has, the passes or the region ran out. -/
theorem relayLoop_spec (reg : List Octet) : ∀ (k pos : Nat) (rs : List Address), ∃ ns : List Address,
    relayLoop k reg pos rs = (pos + 7 * ns.length, rs ++ ns) ∧ ns.length ≤ k ∧
    (∀ i, i < ns.length → (slotAt reg (pos + 7 * i)).map decodeSlot = ns[i]?) ∧
    (∀ i r, ns[i]? = some r → i + 1 < ns.length → r.last = false) ∧
    (chainClosed ns = true ∨
      ((∀ r ∈ ns, r.last = false) ∧ (ns.length = k ∨ slotAt reg (pos + 7 * ns.length) = none)))
  | 0, pos, rs => ⟨[], by simp [relayLoop]⟩
  | k + 1, pos, rs => by
    match hs : slotAt reg pos with
    | none => exact ⟨[], by simp [relayLoop, hs]⟩
    | some slot =>
      by_cases hl : (decodeSlot slot).last = true
      · refine ⟨[decodeSlot slot], by simp [relayLoop, hs, hl], by simp, ?_, by simp, .inl (by simpa [chainClosed] using hl)⟩
        intro i hi
        obtain rfl : i = 0 := by simpa using hi
        simp [hs]
      · obtain ⟨ns, heq, hlen, hget, hmid, hend⟩ := relayLoop_spec reg k (pos + 7) (rs ++ [decodeSlot slot])
        refine ⟨decodeSlot slot :: ns, ?_, by simpa using hlen, ?_, ?_, ?_⟩
        · simp only [relayLoop, hs, hl, heq, List.length_cons]
          simp only [Bool.false_eq_true, if_false, List.append_assoc, List.singleton_append, Prod.mk.injEq, and_true]
          omega
        · rintro (_ | i) hi
          · simp [hs]
          · have := hget i (by simpa using hi)
            rw [List.getElem?_cons_succ, ← this]
            congr 2
            omega
        · rintro (_ | i) r hr hi
          · simp only [List.getElem?_cons_zero, Option.some.injEq] at hr
            rw [← hr]
            simpa using hl
          · exact hmid i r (by simpa using hr) (by simpa using hi)
        · rcases hend with hc | ⟨hall, hstop⟩
          · left
            match ns, hc with
            | [], hc => simp [chainClosed] at hc
            | n :: ns, hc => simpa [chainClosed, List.getLast?_cons_cons] using hc
          · right
            refine ⟨fun r hr => ?_, ?_⟩
            · rcases List.mem_cons.mp hr with rfl | hr
              · simpa using hl
              · exact hall r hr
            · rcases hstop with h | h
              · left; simp [h]
              · right
                rw [← h]
                congr 1
                simp only [List.length_cons]
                omega

/-- The walk up to the failure test (R125 to R127): the mandatory slots; no relays when the source is last, else the relays of the loop. -/
theorem addrWalk_eq (reg : List Octet) : addrWalk reg = if reg.length < 14 then none else
    match slotAt reg 0, slotAt reg 7 with
    | some d, some s =>
      if (decodeSlot s).last then some ⟨decodeSlot d, decodeSlot s, [], 14⟩
      else some ⟨decodeSlot d, decodeSlot s, (relayLoop 8 reg 14 []).2, (relayLoop 8 reg 14 []).1⟩
    | _, _ => none := by
  unfold addrWalk
  split
  · rfl
  · split
    · split <;> simp [*]
    · simp_all

/-- Everything the walk gives for a region of at least 14 octets. -/
theorem addrWalk_spec {reg : List Octet} (h : 14 ≤ reg.length) : ∃ f, addrWalk reg = some f ∧
    (slotAt reg 0).map decodeSlot = some f.destination ∧ (slotAt reg 7).map decodeSlot = some f.source ∧
    f.consumed = 14 + 7 * f.relays.length ∧ f.relays.length ≤ 8 ∧
    (∀ i, i < f.relays.length → (slotAt reg (14 + 7 * i)).map decodeSlot = f.relays[i]?) ∧
    (∀ i r, f.relays[i]? = some r → i + 1 < f.relays.length → r.last = false) ∧
    (f.source.last = true → f.relays = []) ∧
    (f.source.last = false → chainClosed f.relays = true ∨
      ((∀ r ∈ f.relays, r.last = false) ∧
        (f.relays.length = 8 ∨ slotAt reg (14 + 7 * f.relays.length) = none))) := by
  obtain ⟨d, hd⟩ := Option.isSome_iff_exists.mp ((slotAt_isSome_iff reg 0).mpr (by omega))
  obtain ⟨s, hs⟩ := Option.isSome_iff_exists.mp ((slotAt_isSome_iff reg 7).mpr (by omega))
  simp only [addrWalk_eq, show ¬ reg.length < 14 by omega, if_false, hd, hs]
  by_cases hl : (decodeSlot s).last = true
  · exact ⟨⟨decodeSlot d, decodeSlot s, [], 14⟩, by simp only [hl, if_true], by simp [hl]⟩
  · obtain ⟨ns, heq, hlen, hget, hmid, hend⟩ := relayLoop_spec reg 8 14 []
    refine ⟨⟨decodeSlot d, decodeSlot s, ns, 14 + 7 * ns.length⟩, by simp only [hl, heq]; rfl, ?_⟩
    simp only [ Option.map_some, true_and]
    exact ⟨hlen, hget, hmid, fun h => absurd h hl, fun _ => hend⟩

end Sys2Proof.Machine
end

