-- ==== Sys2Proof/Laws/Checksum.lean ====
section
/-! SUPPORT. The checksum's laws: one iteration as a number, its XOR-linearity and injectivity, and the FCS field read off a body. -/

namespace Sys2Proof.Machine

/-- One iteration on the register as a number: halve, and XOR the constant in when the number was odd (R101). -/
theorem crcIter_toNat (c : Word16) :
    (crcIter c).toNat = if c.toNat % 2 = 1 then (c.toNat / 2) ^^^ 0x8408 else c.toNat / 2 := by
  have hbit : c.getLsbD 0 = decide (c.toNat % 2 = 1) := by simp [BitVec.getLsbD]
  unfold crcIter
  by_cases h : c.toNat % 2 = 1 <;> simp only [hbit, h, decide_true, decide_false, if_true, if_false] <;>
    simp [Nat.shiftRight_one]

/-- One iteration as a shift and a conditional XOR. -/
theorem crcIter_eq (c : Word16) :
    crcIter c = (c >>> 1) ^^^ (if c.getLsbD 0 then 0x8408#16 else 0#16) := by
  unfold crcIter
  split
  · rfl
  · exact BitVec.xor_zero.symm

/-- One iteration is linear over XOR. -/
theorem crcIter_xor (a b : Word16) : crcIter (a ^^^ b) = crcIter a ^^^ crcIter b := by
  simp only [crcIter_eq, BitVec.ushiftRight_xor_distrib, BitVec.getLsbD_xor]
  cases ha : a.getLsbD 0 <;> cases hb : b.getLsbD 0 <;> simp
  · ac_rfl
  · ac_rfl
  · rw [show a >>> 1 ^^^ 33800#16 ^^^ (b >>> 1 ^^^ 33800#16) = (a >>> 1 ^^^ b >>> 1) ^^^ (33800#16 ^^^ 33800#16) by ac_rfl]
    simp

theorem crcIters_xor : ∀ (k : Nat) (a b : Word16), crcIters k (a ^^^ b) = crcIters k a ^^^ crcIters k b
  | 0, _, _ => rfl
  | k + 1, a, b => by simp only [crcIters, crcIter_xor, crcIters_xor k]

/-- Only the zero register goes to zero: bit 15 of the constant shows whether the XOR was applied (R101). -/
theorem crcIter_eq_zero {c : Word16} (h : crcIter c = 0#16) : c = 0#16 := by
  have hn := congrArg BitVec.toNat h
  rw [crcIter_toNat] at hn
  have hlt := c.isLt
  apply BitVec.eq_of_toNat_eq
  split at hn
  · have : c.toNat / 2 = 0x8408 := by simpa using Nat.xor_eq_zero_iff.mp (by simpa using hn)
    omega
  · simp at hn ⊢
    omega

theorem crcIter_injective : Function.Injective crcIter := fun a b h => by
  have hz : crcIter (a ^^^ b) = 0#16 := by rw [crcIter_xor, h, BitVec.xor_self]
  exact BitVec.xor_eq_zero_iff.mp (crcIter_eq_zero hz)

theorem crcIters_injective : ∀ k, Function.Injective (crcIters k)
  | 0 => fun _ _ h => h
  | k + 1 => fun _ _ h => crcIter_injective (crcIters_injective k h)

theorem zeroExtend_octet_injective : Function.Injective fun b : Octet => b.zeroExtend 16 := fun a b h => by
  have := congrArg BitVec.toNat h
  have ha := a.isLt
  have hb := b.isLt
  apply BitVec.eq_of_toNat_eq
  simp only [BitVec.truncate_eq_setWidth, BitVec.toNat_setWidth] at this
  omega

/-- For a fixed octet CRC.BYTE loses nothing of the register. -/
theorem crcByte_injective (b : Octet) : Function.Injective fun c => crcByte c b := fun _ _ h =>
  (BitVec.xor_left_inj _).mp (crcIters_injective 8 h)

/-- For a fixed register CRC.BYTE loses nothing of the octet. -/
theorem crcByte_injective_octet (c : Word16) : Function.Injective fun b => crcByte c b := fun _ _ h =>
  zeroExtend_octet_injective ((BitVec.xor_right_inj _).mp (crcIters_injective 8 h))

@[simp] theorem crcBytes_nil (c : Word16) : crcBytes c [] = c := rfl

@[simp] theorem crcBytes_cons (c : Word16) (b : Octet) (bs : List Octet) :
    crcBytes c (b :: bs) = crcBytes (crcByte c b) bs := rfl

theorem crcBytes_append (c : Word16) (as bs : List Octet) : crcBytes c (as ++ bs) = crcBytes (crcBytes c as) bs := by
  simp [crcBytes]

/-- A run of octets loses nothing of the register it starts from. -/
theorem crcBytes_injective : ∀ bs : List Octet, Function.Injective fun c => crcBytes c bs
  | [] => fun _ _ h => h
  | b :: bs => fun _ _ h => crcByte_injective b (crcBytes_injective bs h)

theorem crcFinal_injective : Function.Injective crcFinal := fun _ _ h => (BitVec.xor_left_inj _).mp h

/-- An octet that only sits in bits 15 to 8 is shifted down whole by eight iterations. -/
theorem crcIters_high (h : Octet) : crcIters 8 (h.zeroExtend 16 <<< 8) = h.zeroExtend 16 := by
  revert h; decide +kernel

/-- The received FCS as a number: low octet first (R51). -/
theorem fcsWord_toNat (l h : Octet) : (fcsWord l h).toNat = l.toNat + 256 * h.toNat := by
  have hl := l.isLt
  have hh := h.isLt
  simp only [fcsWord, BitVec.truncate_eq_setWidth, BitVec.toNat_or, BitVec.toNat_setWidth, BitVec.toNat_shiftLeft]
  rw [Nat.mod_eq_of_lt (by omega), Nat.mod_eq_of_lt (a := h.toNat) (by omega), Nat.shiftLeft_eq,
    Nat.mod_eq_of_lt (by omega), Nat.or_comm, Nat.mul_comm, ← Nat.two_pow_add_eq_or_of_lt (i := 8) (by omega)]
  omega

/-- The FCS field of a body of at least two octets (R79). -/
theorem fcsReceived_eq {body : List Octet} (h : 2 ≤ body.length) :
    fcsReceived body = some (fcsWord (body.getD (body.length - 2) 0#8) (body.getD (body.length - 1) 0#8)) := by
  have h1 : body.length - 2 < body.length := by omega
  have h2 : body.length - 2 + 1 < body.length := by omega
  have hd : body.drop (body.length - 2) = [body[body.length - 2], body[body.length - 2 + 1]] := by
    rw [List.drop_eq_getElem_cons h1, List.drop_eq_getElem_cons h2, List.drop_of_length_le (by omega)]
  unfold fcsReceived
  simp only [hd, List.getD_eq_getElem?_getD, List.getElem?_eq_getElem h1, show body.length - 1 = body.length - 2 + 1 by omega,
    List.getElem?_eq_getElem h2, Option.getD_some]

/-- FCS.VERIFY as the comparison of two numbers (R104). -/
theorem fcsVerify_iff (body : List Octet) : fcsVerify body = true ↔ 3 ≤ body.length ∧
    fcsCompute (fcsCovered body) = fcsWord (body.getD (body.length - 2) 0#8) (body.getD (body.length - 1) 0#8) := by
  by_cases h : body.length < 3
  · simp [fcsVerify, h]
  · simp only [fcsVerify, h, if_false, fcsReceived_eq (show 2 ≤ body.length by omega), beq_iff_eq, Option.some.injEq]
    exact ⟨fun e => ⟨by omega, e.symm⟩, fun e => e.2.symm⟩

/-- `fcs_ok` after FCS.VERIFY on the registers is what FCS.VERIFY returns. -/
@[simp] theorem Work.fcsVerify_fcsOk (w : Work) (body : List Octet) :
    (w.fcsVerify body).fcsOk = Sys2Proof.Machine.fcsVerify body := by
  unfold Work.fcsVerify
  split
  · rename_i h; simp [Sys2Proof.Machine.fcsVerify, h]
  · rfl

/-- FCS.VERIFY on the registers writes `crc` and `fcs_ok` only. -/
theorem Work.fcsVerify_eq (w : Work) (body : List Octet) :
    w.fcsVerify body = { w with crc := (w.fcsVerify body).crc, fcsOk := Sys2Proof.Machine.fcsVerify body } := by
  unfold Work.fcsVerify
  split
  · rename_i h; simp [Sys2Proof.Machine.fcsVerify, h]
  · rfl

end Sys2Proof.Machine
end

