-- ==== Sys2Proof/Laws/Control.lean ====
section
/-! SUPPORT. The classifier's flags by the octet's value, and what a control-octet row answers. -/

namespace Sys2Proof.Machine

/-- Each flag by the two low bits (R140). -/
theorem classify_iff : ∀ c : Octet,
    ((classify c).isInformation = true ↔ c.toNat % 2 = 0) ∧ ((classify c).isSupervisory = true ↔ c.toNat % 4 = 1) ∧
      ((classify c).isUnnumbered = true ↔ c.toNat % 4 = 3) := by
  decide +kernel

/-- `pid_present` from the octet alone (R143). -/
theorem pidSelect_classify_iff : ∀ c : Octet, pidSelect c (classify c) = true ↔ c.toNat % 2 = 0 ∨ c.toNat = 3 := by
  decide +kernel

/-- The code of the kind is the two low bits, or 0 for an even octet (R37). -/
theorem kindOf_classify_code : ∀ c : Octet,
    (kindOf (classify c)).code.toNat = if c.toNat % 2 = 1 then c.toNat % 4 else 0 := by
  decide +kernel

/-- Everything a control-octet row does. -/
theorem controlRow_eq (c : Octet) (s : State) : controlRow c s =
    .next ((s.setWork { s.work with control := c, flags := classify c, pidPresent := pidSelect c (classify c) }).setRet (.kind (classify c))) :=
  rfl

end Sys2Proof.Machine
end

