-- ==== Sys2Proof/Laws/Decode.lean ====
section
/-! SUPPORT. What each decoding helper answers, and the control-octet rows by the octet's low bits. -/

namespace Sys2Proof

open Sys2Proof.Machine (Op Slot)

theorem takeOne_eq_ok_iff {op : Op} {mk : Octet → Instr} {bs : List Octet} {i : Instr} :
    takeOne op mk bs = .ok i ↔ ∃ o, bs = [o] ∧ mk o = i := by
  unfold takeOne; split <;> simp_all

theorem takeControl_eq_ok_iff {op : Op} {mk : Octet → Instr} {bs : List Octet} {i : Instr} :
    takeControl op mk bs = .ok i ↔ ∃ c, bs = [c] ∧ (mk c).wellFormed = true ∧ mk c = i := by
  unfold takeControl
  split
  · split <;> simp_all
  · simp_all

theorem takeNone_eq_ok_iff {op : Op} {i j : Instr} {bs : List Octet} :
    takeNone op i bs = .ok j ↔ bs = [] ∧ i = j := by
  unfold takeNone; split <;> simp_all

theorem takeFixed_eq_ok_iff {op : Op} {i j : Instr} {fixed bs : List Octet} :
    takeFixed op i fixed bs = .ok j ↔ bs = fixed ∧ i = j := by
  unfold takeFixed
  split
  · simp_all
  · split <;> simp_all

theorem takeTwo_eq_ok_iff {op : Op} {mk : Octet → Octet → Instr} {bs : List Octet} {i : Instr} :
    takeTwo op mk bs = .ok i ↔ ∃ l h, bs = [l, h] ∧ mk l h = i := by
  unfold takeTwo; split <;> simp_all

theorem takeSlot_eq_ok_iff {op : Op} {mk : Slot → Instr} {bs : List Octet} {i : Instr} :
    takeSlot op mk bs = .ok i ↔ ∃ s : Slot, bs = [s.o0, s.o1, s.o2, s.o3, s.o4, s.o5, s.ssid] ∧ mk s = i := by
  unfold takeSlot
  split
  · rename_i o0 o1 o2 o3 o4 o5 o6
    constructor
    · intro h
      exact ⟨⟨o0, o1, o2, o3, o4, o5, o6⟩, rfl, by simpa using h⟩
    · rintro ⟨s, hs, rfl⟩
      simp only [List.cons.injEq, and_true] at hs
      obtain ⟨rfl, rfl, rfl, rfl, rfl, rfl, rfl⟩ := hs
      rfl
  · rename_i h
    constructor
    · intro hc; cases hc
    · rintro ⟨s, rfl, -⟩
      exact absurd rfl (h _ _ _ _ _ _ _)

/-- The control-octet rows by the octet's value (R76). -/
theorem fitsPattern_control : ∀ c : Octet,
    (fitsPattern 0x01#8 0x00#8 c = true ↔ c.toNat % 2 = 0) ∧ (fitsPattern 0x03#8 0x01#8 c = true ↔ c.toNat % 4 = 1) ∧
      (fitsPattern 0x03#8 0x03#8 c = true ↔ c.toNat % 4 = 3) := by
  decide +kernel

end Sys2Proof
end

