-- ==== Sys2Proof/Laws/State.lean ====
section
/-! SUPPORT. One lemma for each field of State and each update of it, so that no later proof unfolds a record update. -/

namespace Sys2Proof.Machine

variable (s : State)

@[simp] theorem State.setWork_buf (w : Work) : (s.setWork w).buf = s.buf := rfl
@[simp] theorem State.setWork_len (w : Work) : (s.setWork w).len = s.len := rfl
@[simp] theorem State.setWork_phase (w : Work) : (s.setWork w).phase = s.phase := rfl
@[simp] theorem State.setWork_result (w : Work) : (s.setWork w).result = s.result := rfl
@[simp] theorem State.setWork_work (w : Work) : (s.setWork w).work = w := rfl
@[simp] theorem State.setWork_start (w : Work) : (s.setWork w).start = s.start := rfl
@[simp] theorem State.setWork_sel (w : Work) : (s.setWork w).sel = s.sel := rfl
@[simp] theorem State.setWork_ret (w : Work) : (s.setWork w).ret = s.ret := rfl
@[simp] theorem State.setWork_draws (w : Work) : (s.setWork w).draws = s.draws := rfl

@[simp] theorem State.setRet_buf (v : Value) : (s.setRet v).buf = s.buf := rfl
@[simp] theorem State.setRet_len (v : Value) : (s.setRet v).len = s.len := rfl
@[simp] theorem State.setRet_phase (v : Value) : (s.setRet v).phase = s.phase := rfl
@[simp] theorem State.setRet_result (v : Value) : (s.setRet v).result = s.result := rfl
@[simp] theorem State.setRet_work (v : Value) : (s.setRet v).work = s.work := rfl
@[simp] theorem State.setRet_start (v : Value) : (s.setRet v).start = s.start := rfl
@[simp] theorem State.setRet_sel (v : Value) : (s.setRet v).sel = s.sel := rfl
@[simp] theorem State.setRet_ret (v : Value) : (s.setRet v).ret = some v := rfl
@[simp] theorem State.setRet_draws (v : Value) : (s.setRet v).draws = s.draws := rfl

@[simp] theorem State.setResult_buf (r : Result) : (s.setResult r).buf = s.buf := rfl
@[simp] theorem State.setResult_len (r : Result) : (s.setResult r).len = s.len := rfl
@[simp] theorem State.setResult_phase (r : Result) : (s.setResult r).phase = .done := rfl
@[simp] theorem State.setResult_result (r : Result) : (s.setResult r).result = some r := rfl
@[simp] theorem State.setResult_work (r : Result) : (s.setResult r).work = s.work := rfl
@[simp] theorem State.setResult_start (r : Result) : (s.setResult r).start = s.start := rfl
@[simp] theorem State.setResult_sel (r : Result) : (s.setResult r).sel = s.sel := rfl
@[simp] theorem State.setResult_ret (r : Result) : (s.setResult r).ret = s.ret := rfl
@[simp] theorem State.setResult_draws (r : Result) : (s.setResult r).draws = s.draws := rfl

@[simp] theorem State.countDraw_buf : (s.countDraw).buf = s.buf := rfl
@[simp] theorem State.countDraw_len : (s.countDraw).len = s.len := rfl
@[simp] theorem State.countDraw_phase : (s.countDraw).phase = s.phase := rfl
@[simp] theorem State.countDraw_result : (s.countDraw).result = s.result := rfl
@[simp] theorem State.countDraw_work : (s.countDraw).work = s.work := rfl
@[simp] theorem State.countDraw_start : (s.countDraw).start = s.start := rfl
@[simp] theorem State.countDraw_sel : (s.countDraw).sel = s.sel := rfl
@[simp] theorem State.countDraw_ret : (s.countDraw).ret = s.ret := rfl
@[simp] theorem State.countDraw_draws : (s.countDraw).draws = s.draws + 1 := rfl

@[simp] theorem State.clearStart_buf : (s.clearStart).buf = s.buf := rfl
@[simp] theorem State.clearStart_len : (s.clearStart).len = s.len := rfl
@[simp] theorem State.clearStart_phase : (s.clearStart).phase = s.phase := rfl
@[simp] theorem State.clearStart_result : (s.clearStart).result = s.result := rfl
@[simp] theorem State.clearStart_work : (s.clearStart).work = s.work := rfl
@[simp] theorem State.clearStart_start : (s.clearStart).start = false := rfl
@[simp] theorem State.clearStart_sel : (s.clearStart).sel = s.sel := rfl
@[simp] theorem State.clearStart_ret : (s.clearStart).ret = s.ret := rfl
@[simp] theorem State.clearStart_draws : (s.clearStart).draws = s.draws := rfl

@[simp] theorem State.load_buf (op : Op) (bs : List Octet) : (s.load op bs).buf = Memory.ofOctets 0 bs := rfl
@[simp] theorem State.load_len (op : Op) (bs : List Octet) : (s.load op bs).len = bs.length := rfl
@[simp] theorem State.load_phase (op : Op) (bs : List Octet) : (s.load op bs).phase = s.phase := rfl
@[simp] theorem State.load_result (op : Op) (bs : List Octet) : (s.load op bs).result = s.result := rfl
@[simp] theorem State.load_work (op : Op) (bs : List Octet) : (s.load op bs).work = s.work := rfl
@[simp] theorem State.load_start (op : Op) (bs : List Octet) : (s.load op bs).start = true := rfl
@[simp] theorem State.load_sel (op : Op) (bs : List Octet) : (s.load op bs).sel = op := rfl
@[simp] theorem State.load_ret (op : Op) (bs : List Octet) : (s.load op bs).ret = s.ret := rfl
@[simp] theorem State.load_draws (op : Op) (bs : List Octet) : (s.load op bs).draws = s.draws := rfl

@[simp] theorem State.endCall_buf (rf : Vector (Option Address) 8) : (s.endCall rf).buf = s.buf := rfl
@[simp] theorem State.endCall_len (rf : Vector (Option Address) 8) : (s.endCall rf).len = s.len := rfl
@[simp] theorem State.endCall_phase (rf : Vector (Option Address) 8) : (s.endCall rf).phase = s.phase := rfl
@[simp] theorem State.endCall_result (rf : Vector (Option Address) 8) : (s.endCall rf).result = s.result := rfl
@[simp] theorem State.endCall_work (rf : Vector (Option Address) 8) : (s.endCall rf).work = { Config.freeWork s.draws with relay := rf, stage := .sDone } := rfl
@[simp] theorem State.endCall_start (rf : Vector (Option Address) 8) : (s.endCall rf).start = s.start := rfl
@[simp] theorem State.endCall_sel (rf : Vector (Option Address) 8) : (s.endCall rf).sel = s.sel := rfl
@[simp] theorem State.endCall_ret (rf : Vector (Option Address) 8) : (s.endCall rf).ret = s.ret := rfl
@[simp] theorem State.endCall_draws (rf : Vector (Option Address) 8) : (s.endCall rf).draws = s.draws + 1 := rfl

@[simp] theorem raiseError_buf (e : DecodeError) : (raiseError e s).buf = s.buf := rfl
@[simp] theorem raiseError_len (e : DecodeError) : (raiseError e s).len = s.len := rfl
@[simp] theorem raiseError_phase (e : DecodeError) : (raiseError e s).phase = .done := rfl
@[simp] theorem raiseError_result (e : DecodeError) : (raiseError e s).result = some (.err e) := rfl
@[simp] theorem raiseError_work (e : DecodeError) : (raiseError e s).work = { Config.freeWork s.draws with relay := relayFile [], stage := .sDone } := rfl
@[simp] theorem raiseError_start (e : DecodeError) : (raiseError e s).start = s.start := rfl
@[simp] theorem raiseError_sel (e : DecodeError) : (raiseError e s).sel = s.sel := rfl
@[simp] theorem raiseError_ret (e : DecodeError) : (raiseError e s).ret = s.ret := rfl
@[simp] theorem raiseError_draws (e : DecodeError) : (raiseError e s).draws = s.draws + 1 := rfl

@[simp] theorem complete_buf (f : Frame) : (complete f s).buf = s.buf := rfl
@[simp] theorem complete_len (f : Frame) : (complete f s).len = s.len := rfl
@[simp] theorem complete_phase (f : Frame) : (complete f s).phase = .done := rfl
@[simp] theorem complete_result (f : Frame) : (complete f s).result = some (.ok f) := rfl
@[simp] theorem complete_work (f : Frame) : (complete f s).work = { Config.freeWork s.draws with relay := relayFile f.relays, stage := .sDone } := rfl
@[simp] theorem complete_start (f : Frame) : (complete f s).start = s.start := rfl
@[simp] theorem complete_sel (f : Frame) : (complete f s).sel = s.sel := rfl
@[simp] theorem complete_ret (f : Frame) : (complete f s).ret = s.ret := rfl
@[simp] theorem complete_draws (f : Frame) : (complete f s).draws = s.draws + 1 := rfl

@[simp] theorem State.setOctet_buf (addr : Nat) (v : Octet) : (s.setOctet addr v).buf = Memory.write s.buf addr v := rfl
@[simp] theorem State.setOctet_len (addr : Nat) (v : Octet) : (s.setOctet addr v).len = s.len := rfl
@[simp] theorem State.setOctet_phase (addr : Nat) (v : Octet) : (s.setOctet addr v).phase = s.phase := rfl
@[simp] theorem State.setOctet_result (addr : Nat) (v : Octet) : (s.setOctet addr v).result = s.result := rfl
@[simp] theorem State.setOctet_work (addr : Nat) (v : Octet) : (s.setOctet addr v).work = s.work := rfl
@[simp] theorem State.setOctet_start (addr : Nat) (v : Octet) : (s.setOctet addr v).start = s.start := rfl
@[simp] theorem State.setOctet_sel (addr : Nat) (v : Octet) : (s.setOctet addr v).sel = s.sel := rfl
@[simp] theorem State.setOctet_ret (addr : Nat) (v : Octet) : (s.setOctet addr v).ret = s.ret := rfl
@[simp] theorem State.setOctet_draws (addr : Nat) (v : Octet) : (s.setOctet addr v).draws = s.draws := rfl

/-- The host presents only between calls (U7), and what it presents is the load. -/
theorem State.present_eq_some_iff {s : State} {op : Op} {bs : List Octet} {t : State} :
    s.present op bs = some t ↔ s.start = false ∧ s.load op bs = t := by
  cases h : s.start <;> simp [State.present, h]

/-- The host writes only between calls (U6), and only an octet of the buffer. -/
theorem State.hostWrite_eq_some_iff {s : State} {addr : Nat} {v : Octet} {t : State} :
    s.hostWrite addr v = some t ↔ s.start = false ∧ addr < s.len ∧ s.setOctet addr v = t := by
  cases h : s.start <;> simp [State.hostWrite, h]

end Sys2Proof.Machine
end

