-- ==== Sys2Proof/Laws/Memory.lean ====
section
/-! SUPPORT. The buffer's laws: every memory operation keeps the canonical form, a read after a write, what presented octets read as, and what a run of reads answers. -/

namespace Sys2Proof.Machine

namespace Memory

theorem wfFrom_mono {lo lo' : Nat} (h : lo' ≤ lo) : ∀ {m : List Host.Cell}, wfFrom lo m = true → wfFrom lo' m = true
  | [], _ => rfl
  | (a, b) :: m, hw => by
    simp only [wfFrom, Bool.and_eq_true, decide_eq_true_eq] at hw ⊢
    exact ⟨⟨by omega, hw.1.2⟩, hw.2⟩

/-- An offset below every listed one reads as an unlisted octet. -/
theorem byteAt_of_lt : ∀ {lo : Nat} {m : List Host.Cell}, wfFrom lo m = true → ∀ {x : Nat}, x < lo → byteAt m x = 0#8
  | _, [], _, _, _ => rfl
  | lo, (a, b) :: m, hw, x, hx => by
    simp only [wfFrom, Bool.and_eq_true, decide_eq_true_eq] at hw
    rw [byteAt, if_neg (by omega)]
    exact byteAt_of_lt hw.2 (by omega)

theorem wfFrom_write {v : Octet} : ∀ {lo : Nat} {m : List Host.Cell} {x : Nat}, wfFrom lo m = true → lo ≤ x →
    wfFrom lo (write m x v) = true
  | lo, [], x, _, hx => by
    by_cases hv : v = 0#8 <;> simp [write, wfFrom, hv, hx]
  | lo, (a, b) :: m, x, hw, hx => by
    have hw' := hw
    simp only [wfFrom, Bool.and_eq_true, decide_eq_true_eq] at hw
    rcases Nat.lt_trichotomy x a with h | h | h
    · by_cases hv : v = 0#8
      · simpa [write, h, hv] using hw'
      · simp only [write, h, hv, if_true, if_false, wfFrom, Bool.and_eq_true, decide_eq_true_eq]
        exact ⟨⟨hx, by simpa using hv⟩, ⟨by omega, hw.1.2⟩, hw.2⟩
    · by_cases hv : v = 0#8
      · simp only [write, h, lt_irrefl, if_false, if_true, hv]
        exact wfFrom_mono (by omega) hw.2
      · simp [write, h, hv, wfFrom, hw]
    · simp only [write, show ¬ x < a by omega, show ¬ x = a by omega, if_false, wfFrom, Bool.and_eq_true,
        decide_eq_true_eq]
      exact ⟨⟨hw.1.1, hw.1.2⟩, wfFrom_write hw.2 (by omega)⟩

/-- A write keeps the canonical form. -/
theorem wf_write {m : List Host.Cell} {x : Nat} {v : Octet} (h : wf m = true) : wf (write m x v) = true :=
  wfFrom_write h (Nat.zero_le x)

/-- A read after a write. -/
theorem byteAt_write {v : Octet} : ∀ {lo : Nat} {m : List Host.Cell} {x : Nat}, wfFrom lo m = true → ∀ y,
    byteAt (write m x v) y = if y = x then v else byteAt m y
  | lo, [], x, _, y => by
    by_cases hv : v = 0#8 <;> by_cases hy : y = x <;> simp [write, byteAt, hv, hy]
  | lo, (a, b) :: m, x, hw, y => by
    simp only [wfFrom, Bool.and_eq_true, decide_eq_true_eq] at hw
    rcases Nat.lt_trichotomy x a with h | h | h
    · have hm : byteAt m x = 0#8 := byteAt_of_lt hw.2 (by omega)
      by_cases hv : v = 0#8 <;> by_cases hy : y = x
      · subst hy; simp [write, h, hv, byteAt, show y ≠ a by omega, hm]
      · simp [write, h, hv, hy]
      · subst hy; simp [write, h, hv, byteAt]
      · simp [write, h, hv, hy, byteAt]
    · subst h
      have hm : byteAt m x = 0#8 := byteAt_of_lt hw.2 (by omega)
      by_cases hv : v = 0#8 <;> by_cases hy : y = x
      · subst hy; simp [write, hv, hm]
      · simp [write, hv, hy, byteAt]
      · simp [write, hv, hy, byteAt]
      · simp [write, hv, hy, byteAt]
    · simp only [write, show ¬ x < a by omega, show ¬ x = a by omega, if_false, byteAt, byteAt_write hw.2 y]
      by_cases hy : y = a
      · simp [hy, show ¬ a = x by omega]
      · simp [hy]

theorem within_write {n : Nat} {v : Octet} {x : Nat} (hx : x < n) : ∀ {m : List Host.Cell}, within n m = true →
    within n (write m x v) = true
  | [], _ => by by_cases hv : v = 0#8 <;> simp [write, within, hv, hx]
  | (a, b) :: m, hw => by
    have hw' := hw
    simp only [within, List.all_cons, Bool.and_eq_true, decide_eq_true_eq] at hw
    have ih := within_write (v := v) hx (m := m) hw.2
    simp only [within] at ih hw' ⊢
    rcases Nat.lt_trichotomy x a with h | h | h
    · by_cases hv : v = 0#8 <;> simp_all [write] <;> exact hw.2
    · by_cases hv : v = 0#8 <;> simp_all [write] <;> exact hw.2
    · simp only [write, show ¬ x < a by omega, show ¬ x = a by omega, if_false, List.all_cons, Bool.and_eq_true,
        decide_eq_true_eq]
      exact ⟨hw.1, ih⟩

theorem wfFrom_ofOctets : ∀ (x : Nat) (bs : List Octet), wfFrom x (ofOctets x bs) = true
  | _, [] => rfl
  | x, b :: bs => by
    have ih := wfFrom_ofOctets (x + 1) bs
    by_cases hb : b = 0#8
    · simpa [ofOctets, hb] using wfFrom_mono (Nat.le_succ x) ih
    · simp [ofOctets, hb, wfFrom, ih]

/-- What the host presents is in canonical form. -/
theorem wf_ofOctets (bs : List Octet) : wf (ofOctets 0 bs) = true :=
  wfFrom_ofOctets 0 bs

theorem within_ofOctets : ∀ (x : Nat) (bs : List Octet), within (x + bs.length) (ofOctets x bs) = true
  | _, [] => rfl
  | x, b :: bs => by
    have ih := within_ofOctets (x + 1) bs
    rw [show x + 1 + bs.length = x + (b :: bs).length by simp; omega] at ih
    by_cases hb : b = 0#8
    · simpa [ofOctets, hb] using ih
    · simp only [within, ofOctets, hb, if_false, List.all_cons, Bool.and_eq_true, decide_eq_true_eq]
      exact ⟨by simp, ih⟩

/-- The octets presented are read back at their offsets. -/
theorem byteAt_ofOctets : ∀ (bs : List Octet) (x y : Nat),
    byteAt (ofOctets x bs) y = if x ≤ y then bs.getD (y - x) 0#8 else 0#8
  | [], _, _ => by simp [ofOctets, byteAt]
  | b :: bs, x, y => by
    have ih := byteAt_ofOctets bs (x + 1) y
    rcases Nat.lt_trichotomy y x with h | h | h
    · by_cases hb : b = 0#8 <;>
        simp [ofOctets, hb, byteAt, ih, show ¬ x + 1 ≤ y by omega, show ¬ x ≤ y by omega, show ¬ y = x by omega]
    · subst h
      by_cases hb : b = 0#8 <;> simp [ofOctets, hb, byteAt, ih]
    · obtain ⟨d, rfl⟩ : ∃ d, y = x + 1 + d := ⟨y - (x + 1), by omega⟩
      have hd : x + 1 + d - x = d + 1 := by omega
      by_cases hb : b = 0#8 <;>
        simp [ofOctets, hb, byteAt, ih, hd, show ¬ x + 1 + d = x by omega, show x ≤ x + 1 + d by omega]

end Memory

@[simp] theorem State.octets_length (s : State) : s.octets.length = s.len := by
  simp [State.octets]

/-- An offset inside the buffer reads as the presented octet there. -/
theorem State.octets_getElem? (s : State) {a : Nat} (h : a < s.len) : s.octets[a]? = some (Memory.byteAt s.buf a) := by
  simp [State.octets, h]

theorem State.octets_getD (s : State) {a : Nat} (h : a < s.len) : s.octets.getD a 0#8 = Memory.byteAt s.buf a := by
  simp [List.getD, State.octets_getElem? s h]

/-- The octets of a presentation are the octets presented. -/
@[simp] theorem State.octets_load (s : State) (op : Op) (bs : List Octet) : (s.load op bs).octets = bs := by
  apply List.ext_getElem?
  intro k
  by_cases hk : k < bs.length
  · rw [State.octets_getElem? _ (by simpa using hk)]
    simp [Memory.byteAt_ofOctets, hk]
  · rw [List.getElem?_eq_none (by simpa using Nat.le_of_not_lt hk), List.getElem?_eq_none (Nat.le_of_not_lt hk)]

/-- The buffer and its length are all a presentation's octets depend on. -/
theorem State.octets_congr {s t : State} (hl : t.len = s.len)
    (hb : ∀ a, a < s.len → Memory.byteAt t.buf a = Memory.byteAt s.buf a) : t.octets = s.octets := by
  simp only [State.octets, hl]
  exact List.map_congr_left fun a ha => hb a (List.mem_range.mp ha)

theorem memRead_of_lt (s : State) {a : Nat} (h : a < s.len) : memRead s a = .ok (Memory.byteAt s.buf a) := by
  simp [memRead, h]

theorem memRead_of_ge (s : State) {a : Nat} (h : s.len ≤ a) : memRead s a = .error (.fault (.bufferRange a)) := by
  simp [memRead, Nat.not_lt.mpr h]

/-- A run of reads inside the buffer answers those octets, in order. -/
theorem readSpan_eq (s : State) : ∀ (k off : Nat), off + k ≤ s.len →
    readSpan s off k = .ok ((s.octets.drop off).take k)
  | 0, _, _ => by simp [readSpan]
  | k + 1, off, h => by
    have hlt : off < s.len := by omega
    have hd : s.octets.drop off = Memory.byteAt s.buf off :: s.octets.drop (off + 1) := by
      rw [List.drop_eq_getElem_cons (by simpa using hlt)]
      congr 1
      have := State.octets_getElem? s hlt
      rw [List.getElem?_eq_getElem (by simpa using hlt)] at this
      simpa using this
    simp only [readSpan, memRead_of_lt s hlt, readSpan_eq s k (off + 1) (by omega), hd]
    rfl

/-- A run of reads that leaves the buffer faults at the first offset outside it (U8). -/
theorem readSpan_fault (s : State) : ∀ (k off : Nat), 0 < k → s.len < off + k →
    readSpan s off k = .error (.fault (.bufferRange (max off s.len)))
  | k + 1, off, _, h => by
    by_cases hlt : off < s.len
    · rw [readSpan, memRead_of_lt s hlt, readSpan_fault s k (off + 1) (by omega) (by omega), Nat.max_eq_right (by omega), Nat.max_eq_right (by omega)]
      rfl
    · rw [readSpan, memRead_of_ge s (by omega), Nat.max_eq_left (by omega)]
      rfl

/-- The whole buffer read. -/
theorem readSpan_all (s : State) : readSpan s 0 s.len = .ok s.octets := by
  rw [readSpan_eq s s.len 0 (by omega)]
  simp [List.take_of_length_le]

/-- The region read. -/
theorem readSpan_region (s : State) {n : Nat} (h : n ≤ s.len) : readSpan s 0 n = .ok (s.octets.take n) := by
  rw [readSpan_eq s n 0 (by omega)]
  simp

end Sys2Proof.Machine
end

