-- ==== Sys2Proof/Laws/Frame.lean ====
section
/-! SUPPORT. The frame assembler's laws: what each stage answers, the relay file read back, and what a call leaves. -/

namespace Sys2Proof.Machine

/-- The relay file holds the list's entries, and no value from its length on (R42). -/
theorem relayFile_getElem? (rs : List Address) {k : Nat} (h : k < 8) : (relayFile rs)[k]? = some rs[k]? := by
  simp [relayFile, h]

theorem relayFile_toList (rs : List Address) : (relayFile rs).toList = (List.range 8).map fun k => rs[k]? := by
  apply List.ext_getElem?
  intro k
  by_cases h : k < 8
  · rw [Vector.getElem?_toList, relayFile_getElem? rs h]
    simp [h]
  · rw [List.getElem?_eq_none (by simpa using h), List.getElem?_eq_none (by simpa using h)]

theorem range_filterMap_getElem? {α : Type} (l : List α) : (List.range l.length).filterMap (fun k => l[k]?) = l := by
  induction l using List.reverseRecOn with
  | nil => rfl
  | append_singleton l a ih =>
    have hl : (List.range l.length).filterMap (fun k => (l ++ [a])[k]?) = l :=
      (List.filterMap_congr fun k hk => List.getElem?_append_left (List.mem_range.mp hk)).trans ih
    rw [List.length_append, List.length_singleton, List.range_succ, List.filterMap_append, hl]
    simp

/-- The entries filled are read back in order (R35). -/
theorem relaysOf_relayFile {rs : List Address} (h : rs.length ≤ 8) : relaysOf (relayFile rs) rs.length = rs := by
  have ht : (List.range 8).take rs.length = List.range rs.length := by
    rw [List.take_range]; congr 1; omega
  simp only [relaysOf, relayFile_toList, ← List.map_take, ht, List.filterMap_map]
  exact range_filterMap_getElem? rs

/-- `S_LEN` (R151). -/
theorem stageLen_eq (m : Config.Floor) (s : State) (w : Work) : stageLen m s w =
    if s.len < m.minLen then .error (.raise .tooShort) else .ok { w with n := s.len - 2, stage := .sFcs } := rfl

/-- `S_FCS` (R152): the reads of the whole buffer all answer. -/
theorem stageFcs_eq (s : State) (w : Work) : stageFcs s w =
    if fcsVerify s.octets then .ok { w.fcsVerify s.octets with stage := .sAddr }
    else .error (.raise .checksumMismatch) := by
  simp only [stageFcs, readSpan_all, Work.fcsVerify_fcsOk]
  rfl

/-- `S_ADDR` (R153): the reads of the region all answer. -/
theorem stageAddr_eq (s : State) (w : Work) (h : w.n ≤ s.len) : stageAddr s w =
    if (addrField (s.octets.take w.n)).isSome then .ok { w.addrField (s.octets.take w.n) with stage := .sCtl }
    else .error (.raise .malformedAddressField) := by
  simp only [stageAddr, readSpan_region s h]
  rfl

/-- `S_CTL` (R154, R155): the control octet is inside the region, so it is read. -/
theorem stageCtl_eq (s : State) (w : Work) (h : w.n ≤ s.len) : stageCtl s w =
    if w.a ≥ w.n then .error (.raise .truncated)
    else .ok { w.takeControl (Memory.byteAt s.buf w.a) with stage := .sPid } := by
  unfold stageCtl
  split
  · rfl
  · rw [memRead_of_lt s (by omega)]; rfl

/-- `S_PID` (R156, R157): the protocol identifier, when selected and inside the region, is read. -/
theorem stagePid_eq (s : State) (w : Work) (h : w.n ≤ s.len) : stagePid s w =
    if pidSelect w.control w.flags then
      if w.a + 1 ≥ w.n then .error (.raise .truncated)
      else .ok { w.selectPid with protocolId := some (Memory.byteAt s.buf (w.a + 1)), stage := .sPay }
    else .ok { w.selectPid with protocolId := none, stage := .sPay } := by
  simp only [stagePid, Work.selectPid]
  by_cases hp : pidSelect w.control w.flags = true
  · by_cases hn : w.a + 1 ≥ w.n
    · simp [hp, hn]
    · simp only [hp, hn, if_true, if_false, memRead_of_lt s (show w.a + 1 < s.len by omega)]; rfl
  · simp [hp]

/-- ADDR.FIELD on the registers when it does not fail. -/
theorem Work.addrField_ok {w : Work} {reg : List Octet} {f : FieldOk} (h : Sys2Proof.Machine.addrField reg = some f) :
    w.addrField reg = { w with n := reg.length, pos := f.consumed, nrel := f.relays.length, a := f.consumed, destination := f.destination, source := f.source, relay := relayFile f.relays } := by
  unfold Sys2Proof.Machine.addrField at h
  unfold Work.addrField
  split at h
  · cases h
  · rename_i g hg
    split at h
    · rename_i hc
      cases h
      simp [hc]
    · cases h

/-- ADDR.FIELD does not fail exactly when its walk ends with the chain closed (R128). -/
theorem addrField_eq_some_iff (reg : List Octet) (f : FieldOk) :
    addrField reg = some f ↔ addrWalk reg = some f ∧ (f.source.last = true ∨ chainClosed f.relays = true) := by
  unfold addrField
  split
  · simp [*]
  · rename_i g hg
    rw [hg]
    constructor
    · intro h
      split at h
      · rename_i hc; cases h; exact ⟨rfl, by simpa using hc⟩
      · cases h
    · rintro ⟨h, hc⟩
      cases h
      rw [if_pos (by simpa using hc)]

end Sys2Proof.Machine
end

