-- ==== Sys2Proof/Laws/PerInstr.lean ====
section
/-! SUPPORT. One property of every instruction as syntax: its encoding has the width that its row of the opcode table gives (R81). -/

namespace Sys2Proof.Laws.EncodeShape

open Sys2Proof.Machine (Op)

/-- The octets a row's encoding takes: none where the run of octets is as long as the operand, and no octets of its own for `CRC.INIT` (R100), `CRC.FINAL` (log 13) and `FRAME.DECODE`. -/
def rowOctets : Op → Option Nat
  | .fcsField => some 2
  | .addrSlot => some 7
  | .crcInit | .crcFinal | .frameDecode => some 0
  | .crcByte | .ctlClassify | .ctlPidsel | .kindI | .kindS | .kindU | .ctlUi | .callsignOctet | .ssidOctet => some 1
  | .fcsCompute | .fcsVerify | .addrField => none

/-- The encoding of an instruction is as long as its row says. -/
def Statement (i : Instr) : Prop :=
  ∀ k, rowOctets i.op = some k → (encode i).length = k

theorem crcInit : Statement .crcInit := fun _ h => Option.some.inj h
theorem crcByte (b : Octet) : Statement (.crcByte b) := fun _ h => Option.some.inj h
theorem crcFinal : Statement .crcFinal := fun _ h => Option.some.inj h
theorem fcsCompute (data : List Octet) : Statement (.fcsCompute data) := fun _ h => nomatch h
theorem fcsVerify (body : List Octet) : Statement (.fcsVerify body) := fun _ h => nomatch h
theorem addrSlot (slot : Machine.Slot) : Statement (.addrSlot slot) := fun _ h => Option.some.inj h
theorem addrField (reg : List Octet) : Statement (.addrField reg) := fun _ h => nomatch h
theorem ctlClassify (control : Octet) : Statement (.ctlClassify control) := fun _ h => Option.some.inj h
theorem ctlPidsel (control : Octet) : Statement (.ctlPidsel control) := fun _ h => Option.some.inj h
theorem frameDecode : Statement .frameDecode := fun _ h => Option.some.inj h
theorem kindI (control : Octet) : Statement (.kindI control) := fun _ h => Option.some.inj h
theorem kindS (control : Octet) : Statement (.kindS control) := fun _ h => Option.some.inj h
theorem kindU (control : Octet) : Statement (.kindU control) := fun _ h => Option.some.inj h
theorem ctlUi : Statement .ctlUi := fun _ h => Option.some.inj h
theorem callsignOctet (o : Octet) : Statement (.callsignOctet o) := fun _ h => Option.some.inj h
theorem ssidOctet (o : Octet) : Statement (.ssidOctet o) := fun _ h => Option.some.inj h
theorem fcsField (l h : Octet) : Statement (.fcsField l h) := fun _ e => Option.some.inj e

end Sys2Proof.Laws.EncodeShape
end

