-- ==== Sys2Proof/Laws/Wrapper.lean ====
section
/-! SUPPORT. What a component operation leaves alone, and the buffer seen through its reads. -/

namespace Sys2Proof.Machine

theorem SameWrapper.setWork (s : State) (w : Work) : SameWrapper s (s.setWork w) :=
  ⟨rfl, rfl, rfl, rfl, rfl, rfl, fun _ => rfl⟩

theorem SameWrapper.setRet (s : State) (w : Work) (v : Value) : SameWrapper s ((s.setWork w).setRet v) :=
  ⟨rfl, rfl, rfl, rfl, rfl, rfl, fun _ => rfl⟩

/-- Two states whose reads agree were presented the same octets. -/
theorem SameBuffer.octets_eq {s t : State} (h : SameBuffer s t) : t.octets = s.octets := by
  refine State.octets_congr h.1 fun a ha => ?_
  have := h.2 a
  rw [memRead_of_lt t (h.1 ▸ ha), memRead_of_lt s ha] at this
  exact Except.ok.inj this

end Sys2Proof.Machine
end

