-- ==== Sys2Proof/Tests/Slice0.lean ====
section
/-! SUPPORT. Small tests: expected values from spec/95 and the encodings of spec/30; then, for each statement with hypotheses, a state and operands that meet them. -/

namespace Sys2Proof.Tests

open Sys2Proof Sys2Proof.Machine

/-- Octets written as numbers. -/
def bs (l : List Nat) : List Octet := l.map (BitVec.ofNat 8)

/-- A slot from 7 octets. -/
def slot (o0 o1 o2 o3 o4 o5 o6 : Nat) : Slot :=
  ⟨.ofNat 8 o0, .ofNat 8 o1, .ofNat 8 o2, .ofNat 8 o3, .ofNat 8 o4, .ofNat 8 o5, .ofNat 8 o6⟩

/-- A property of the next state; false at a stop. -/
def after (o : Host.Outcome State Fault Refusal) (p : State → Bool) : Bool :=
  match o with
  | .next t => p t
  | .fault _ => false
  | .refused _ => false

/-- Reset with the checksum register set. -/
def withCrc (c : Word16) : State := { State.reset with work := { State.reset.work with crc := c } }

/-- A call presented after reset (`test_presented`). -/
def presented (l : List Nat) : State := State.reset.load .frameDecode (bs l)

/-- E7 / V-F1, the UI frame. -/
def uiFrame : List Nat :=
  [0x82, 0xA0, 0xA4, 0xA6, 0x40, 0x40, 0x00, 0x9C, 0x60, 0x86, 0x82, 0x98, 0x98, 0x01, 0x03, 0xF0, 0x54, 0x45, 0x53, 0x54, 0x1B, 0xF6]

/-- V-F7, the shortest frame. -/
def shortFrame : List Nat :=
  [0x82, 0xA0, 0xA4, 0xA6, 0x40, 0x40, 0x00, 0x9C, 0x60, 0x86, 0x82, 0x98, 0x98, 0x01, 0x01, 0xBD, 0x09]

/-- V-F8, an Information frame through two relays. -/
def relayFrame : List Nat :=
  [0x86, 0xA2, 0x40, 0x40, 0x40, 0x40, 0x00, 0xAE, 0x62, 0x82, 0xAE, 0x40, 0x40, 0x0E, 0xA4, 0x8A, 0x98, 0x82, 0xB2, 0x40, 0x00,
    0xAE, 0x92, 0x88, 0x8A, 0x64, 0x40, 0x05, 0x00, 0xCF, 0x48, 0x69, 0x9D, 0x4E]

/-- V-F25: the address chain ends at the FCS. -/
def cutFrame : List Nat :=
  [0x88, 0xA6, 0xA8, 0x40, 0x40, 0x40, 0x00, 0xA6, 0xA4, 0x86, 0x40, 0x40, 0x40, 0x00, 0xA4, 0x62, 0x40, 0x40, 0x40, 0x40, 0x03, 0x8F, 0x63]

/-- V-F29: no relay slot fits. -/
def openFrame : List Nat := [0, 0, 0, 0, 0, 0, 0, 0, 0, 0, 0, 0, 0, 0, 0, 0x8D, 0x3C]

/-- V-F20: sixteen octets, FCS right. -/
def sixteen : List Nat :=
  [0x88, 0xA6, 0xA8, 0x40, 0x40, 0x40, 0x00, 0xA6, 0xA4, 0x86, 0x40, 0x40, 0x40, 0x01, 0x64, 0x80]

/-- The region of V-AF5: one relay, terminated. -/
def oneRelay : List Nat :=
  [0x88, 0xA6, 0xA8, 0x40, 0x40, 0x40, 0x00, 0xA6, 0xA4, 0x86, 0x40, 0x40, 0x40, 0x00, 0xA4, 0x62, 0x40, 0x40, 0x40, 0x40, 0x03]

/-- The region of V-AF13 with the last octet of the eighth relay chosen: no relay before it is terminated. -/
def eightRelays (lastOctet : Nat) : List Nat :=
  [0x88, 0xA6, 0xA8, 0x40, 0x40, 0x40, 0x00, 0xA6, 0xA4, 0x86, 0x40, 0x40, 0x40, 0x00] ++
    ((List.range 7).flatMap fun k => [0xA4, 0x62 + 2 * k, 0x40, 0x40, 0x40, 0x40, 2 + 2 * k]) ++
    [0xA4, 0x70, 0x40, 0x40, 0x40, 0x40, lastOctet]

/-- An address as spec/95 writes it. -/
def addr (ch : List Nat) (callLen suffix : Nat) (last : Bool) (h : ch.length = 6 := by decide) : Address where
  ch := ⟨(ch.map (BitVec.ofNat 7)).toArray, by simpa using h⟩
  callLen := callLen
  suffix := .ofNat 4 suffix
  last := last

/-! Well-formedness: an octet without a row's fixed bits is refused, by the check and by the decoder. -/

theorem test_kindI_ill_formed : (Instr.kindI 0x01#8).wellFormed = false ∧ decode .kindI (bs [0x01]) = .error (.pattern .kindI) := by decide
theorem test_kindS_ill_formed : (Instr.kindS 0x03#8).wellFormed = false ∧ decode .kindS (bs [0x03]) = .error (.pattern .kindS) := by decide
theorem test_kindU_ill_formed : (Instr.kindU 0x01#8).wellFormed = false ∧ decode .kindU (bs [0x01]) = .error (.pattern .kindU) := by decide
theorem test_ctlUi_other_octet : decode .ctlUi (bs [0x13]) = .error (.pattern .ctlUi) := by decide
theorem test_slot_of_six : decode .addrSlot (bs [1, 2, 3, 4, 5, 6]) = .error (.operandLength .addrSlot 6) := by decide
/-- R100: CRC.INIT has no operand, so octets handed to it are refused. -/
theorem test_crcInit_no_octets : decode .crcInit (bs [0xFF, 0xFF]) = .error (.operandLength .crcInit 2) := by decide
theorem test_rows_disjoint : ∀ c : Octet, ((Instr.kindI c).wellFormed.toNat + (Instr.kindS c).wellFormed.toNat + (Instr.kindU c).wellFormed.toNat) = 1 := by decide +kernel

/-! Decoding, the words written out from the encodings of spec/30. -/

theorem test_decode_crcInit : decode .crcInit [] = .ok .crcInit ∧ decodeOctets [0b11111111#8, 0b11111111#8] = .ok .crcInit := by decide
theorem test_decode_crcByte : decode .crcByte [0b01000001#8] = .ok (.crcByte 0x41#8) := by decide
theorem test_decode_crcFinal : decode .crcFinal [] = .ok .crcFinal := by decide
theorem test_decode_fcsCompute : decode .fcsCompute (bs [0x31, 0x32]) = .ok (.fcsCompute (bs [0x31, 0x32])) := by decide
theorem test_decode_fcsVerify : decode .fcsVerify (bs [0x41, 0xF5, 0xA3]) = .ok (.fcsVerify (bs [0x41, 0xF5, 0xA3])) := by decide
theorem test_decode_addrSlot : decode .addrSlot [0b10000010#8, 0b10100000#8, 0b10100100#8, 0b10100110#8, 0b01000000#8, 0b01000000#8, 0b01100001#8] =
    .ok (.addrSlot (slot 0x82 0xA0 0xA4 0xA6 0x40 0x40 0x61)) := by decide
theorem test_decode_addrField : decode .addrField (bs oneRelay) = .ok (.addrField (bs oneRelay)) := by decide +kernel
theorem test_decode_ctlClassify : decode .ctlClassify [0b00010011#8] = .ok (.ctlClassify 0x13#8) := by decide
theorem test_decode_ctlPidsel : decode .ctlPidsel [0b00000011#8] = .ok (.ctlPidsel 0x03#8) := by decide
theorem test_decode_frameDecode : decode .frameDecode (bs uiFrame) = .ok .frameDecode := by decide
theorem test_decode_kindI : decode .kindI [0b10110110#8] = .ok (.kindI 0xB6#8) := by decide
theorem test_decode_kindS : decode .kindS [0b10110101#8] = .ok (.kindS 0xB5#8) := by decide
theorem test_decode_kindU : decode .kindU [0b00010011#8] = .ok (.kindU 0x13#8) := by decide
theorem test_decode_ctlUi : decode .ctlUi [0b00000011#8] = .ok .ctlUi := by decide
theorem test_decode_callsignOctet : decode .callsignOctet [0b10000011#8] = .ok (.callsignOctet 0x83#8) := by decide
theorem test_decode_ssidOctet : decode .ssidOctet [0b11110011#8] = .ok (.ssidOctet 0xF3#8) := by decide
theorem test_decode_fcsField : decode .fcsField [0b00011011#8, 0b11110110#8] = .ok (.fcsField 0x1B#8 0xF6#8) := by decide
theorem test_table_word_slot : decodeTableWord 56 0x614040A6A4A082 = some (.addrSlot (slot 0x82 0xA0 0xA4 0xA6 0x40 0x40 0x61)) := by decide +kernel
theorem test_table_word_no_bits : decodeTableWord 0 0 = some .frameDecode := by decide

/-! The meanings, on the vectors of spec/95. -/

/-- R100's example. -/
theorem test_crcInit : after (exec .crcInit (withCrc 0x1234#16)) (·.work.crc == 0xFFFF#16) = true := by decide +kernel
/-- V-CRC5. -/
theorem test_crcByte : after (exec (.crcByte 0x41#8) (withCrc 0xFFFF#16)) (·.work.crc == 0x5C0A#16) = true := by decide +kernel
/-- V-CRC9. -/
theorem test_crcByte_high : after (exec (.crcByte 0xEF#8) (withCrc 0xABCD#16)) (·.work.crc == 0x02BB#16) = true := by decide +kernel
/-- R102's example. -/
theorem test_crcFinal : after (exec .crcFinal (withCrc 0x6F91#16)) (·.ret == some (.fcs 0x906E#16)) = true := by decide +kernel
/-- V-CRC10. -/
theorem test_fcsCompute : after (exec (.fcsCompute (bs [0x31, 0x32, 0x33, 0x34, 0x35, 0x36, 0x37, 0x38, 0x39])) State.reset) (·.ret == some (.fcs 0x906E#16)) = true := by decide +kernel
/-- V-CRC18. -/
theorem test_fcsVerify : after (exec (.fcsVerify (bs [0x41, 0xF5, 0xA3])) State.reset) (·.ret == some (.verified true)) = true := by decide +kernel
/-- V-CRC20: the octets in the wrong order. -/
theorem test_fcsVerify_swapped : after (exec (.fcsVerify (bs [0x41, 0xA3, 0xF5])) State.reset) (·.ret == some (.verified false)) = true := by decide +kernel
/-- V-A4: an embedded space stays, the trailing run goes. -/
theorem test_addrSlot : after (exec (.addrSlot (slot 0x82 0x40 0x84 0x40 0x40 0x40 0xFF)) State.reset) (·.ret == some (.address (addr [0x41, 0x20, 0x42, 0x20, 0x20, 0x20] 3 15 true))) = true := by decide +kernel
/-- V-A12: the ignored bits. -/
theorem test_addrSlot_ssid : after (exec (.addrSlot (slot 0xB0 0x40 0x40 0x40 0x40 0x40 0xF3)) State.reset) (·.ret == some (.address (addr [0x58, 0x20, 0x20, 0x20, 0x20, 0x20] 1 9 true))) = true := by decide +kernel
/-- V-AF5. -/
theorem test_addrField : after (exec (.addrField (bs oneRelay)) State.reset) (·.ret == some (.field (some
    ⟨addr [0x44, 0x53, 0x54, 0x20, 0x20, 0x20] 3 0 false, addr [0x53, 0x52, 0x43, 0x20, 0x20, 0x20] 3 0 false,
      [addr [0x52, 0x31, 0x20, 0x20, 0x20, 0x20] 2 1 true], 21⟩))) = true := by decide +kernel
/-- V-AF13: eight relays, none terminated. -/
theorem test_addrField_cap : after (exec (.addrField (bs (eightRelays 0x10))) State.reset) (·.ret == some (.field none)) = true := by decide +kernel
/-- V-CTL9. -/
theorem test_ctlClassify : after (exec (.ctlClassify 0x13#8) State.reset) (·.ret == some (.kind ⟨false, false, true⟩)) = true := by decide +kernel
/-- V-CTL8 and V-CTL9. -/
theorem test_ctlPidsel : after (exec (.ctlPidsel 0x03#8) State.reset) (·.work.pidPresent) = true ∧
    after (exec (.ctlPidsel 0x13#8) State.reset) (!·.work.pidPresent) = true := by decide +kernel
/-- V-F1, through a step. -/
theorem test_frameDecode : after (step (presented uiFrame)) (fun t => t.result == some (.ok
    { destination := addr [0x41, 0x50, 0x52, 0x53, 0x20, 0x20] 4 0 false, source := addr [0x4E, 0x30, 0x43, 0x41, 0x4C, 0x4C] 6 0 true
      relays := [], control := 0x03#8, kind := .unnumbered, protocolId := some 0xF0#8, payloadOff := 16, payloadLen := 4 }) &&
    t.payload == some (.ok (bs [0x54, 0x45, 0x53, 0x54]))) = true := by decide +kernel
/-- V-F25. -/
theorem test_frameDecode_truncated : after (step (presented cutFrame)) (·.result == some (.err .truncated)) = true := by decide +kernel
/-- V-F29. -/
theorem test_frameDecode_malformed : after (step (presented openFrame)) (·.result == some (.err .malformedAddressField)) = true := by decide +kernel
/-- V-F20, under both floors. -/
theorem test_frameDecode_sixteen : after (frameDecodeAt .spec17 (presented sixteen)) (·.result == some (.err .tooShort)) = true ∧
    after (frameDecodeAt .repo16 (presented sixteen)) (·.result == some (.err .truncated)) = true := by decide +kernel
set_option maxRecDepth 4000 in
/-- V-F15: eight relays, the highest payload offset, by the listing. -/
theorem test_reference_eight_relays : (match referenceDecode .spec17 (bs (eightRelays 0x11 ++ [0x03, 0xF0, 0x38, 0xDE, 0x73])) with
    | .ok f => f.relays.length == 8 && f.payloadOff == 72 && f.payloadLen == 1
    | .err _ => false) = true := by decide +kernel
/-- V-CTL4, V-CTL5, V-CTL9, V-CTL8: the rows. -/
theorem test_kindI : after (exec (.kindI 0xFE#8) State.reset) (fun t => t.work.flags == ⟨true, false, false⟩ && t.work.pidPresent) = true := by decide +kernel
theorem test_kindS : after (exec (.kindS 0x01#8) State.reset) (fun t => t.work.flags == ⟨false, true, false⟩ && !t.work.pidPresent) = true := by decide +kernel
theorem test_kindU : after (exec (.kindU 0x13#8) State.reset) (fun t => t.work.flags == ⟨false, false, true⟩ && !t.work.pidPresent) = true := by decide +kernel
theorem test_ctlUi : after (exec .ctlUi State.reset) (fun t => t.work.control == 0x03#8 && t.work.flags == ⟨false, false, true⟩ && t.work.pidPresent) = true := by decide +kernel
/-- R121's example. -/
theorem test_callsignOctet : after (exec (.callsignOctet 0x83#8) State.reset) (·.ret == some (.char 0x41#7)) = true := by decide +kernel
/-- R123's examples. -/
theorem test_ssidOctet : after (exec (.ssidOctet 0x6B#8) State.reset) (·.ret == some (.ssid 5#4 true)) = true ∧
    after (exec (.ssidOctet 0x1E#8) State.reset) (·.ret == some (.ssid 15#4 false)) = true := by decide +kernel
/-- R104's example: 1B OR (F6 << 8). -/
theorem test_fcsField : after (exec (.fcsField 0x1B#8 0xF6#8) State.reset) (·.ret == some (.fcs 0xF61B#16)) = true := by decide +kernel
/-- An opcode-table word placed where the next step runs it. -/
theorem test_withFetchWord : after (step (State.reset.withFetchWord 16 0xF61B)) (·.ret == some (.fcs 0xF61B#16)) = true := by decide +kernel
/-- The step refuses six octets handed to ADDR.SLOT, and does nothing without an event. -/
theorem test_step_refuses : step (State.reset.load .addrSlot (bs [1, 2, 3, 4, 5, 6])) = .refused (.badRequest (.operandLength .addrSlot 6)) := by rfl
/-- The host's moves: a presentation after reset, none while it stands, and a write to the buffer once no start stands (U6, U7). -/
theorem test_presented : State.reset.present .frameDecode (bs uiFrame) = some (presented uiFrame) := by rfl
theorem test_no_move_during_a_call : (presented uiFrame).present .frameDecode (bs shortFrame) = none ∧ (presented uiFrame).hostWrite 16 0x41#8 = none ∧
    ((presented uiFrame).clearStart.hostWrite 21 0x41#8).isSome = true ∧ (presented uiFrame).clearStart.hostWrite 22 0x41#8 = none := by decide +kernel
theorem test_step_idle : step State.reset = .next State.reset := by rfl

/-! Witnesses: the hypotheses of the statements can be met. -/

/-- A next state with a property, from a Boolean check. -/
theorem exists_of_after {o : Host.Outcome State Fault Refusal} {p : State → Bool} (h : after o p = true) : ∃ t, o = .next t ∧ p t = true := by
  cases o <;> simp_all [after]

theorem witness_DecodeEncodeRoundTrip : (Instr.kindU 0xFF#8).wellFormed = true := by decide
theorem witness_DecodedOctetsEncodeBack : decode .kindS (bs [0xFD]) = .ok (.kindS 0xFD#8) ∧ Op.kindS ≠ .frameDecode := by decide
theorem witness_NoOctetsAreIllegal : (bs [0xFF, 0xFF, 0xFF, 0xFF, 0xFF, 0xFF, 0xFF]).length = 7 := by decide
theorem witness_StepRunsThePresentedOperation :
    ((State.reset.load .crcByte (bs [0x41])).start = true ∧ decode .crcByte (State.reset.load .crcByte (bs [0x41])).octets = .ok (.crcByte 0x41#8)) ∧
    ((State.reset.load .addrSlot (bs [0])).start = true ∧ decode .addrSlot (State.reset.load .addrSlot (bs [0])).octets = .error (.operandLength .addrSlot 1)) ∧
    State.reset.start = false := by decide +kernel
theorem witness_PresentedOctetsReachTheOperation : State.reset.start = false ∧ decode .fcsField (bs [0x1B, 0xF6]) = .ok (.fcsField 0x1B#8 0xF6#8) := by decide
theorem witness_CrcFinalComplementsEveryBit : 0 < 16 ∧ 15 < 16 := by decide
/-- The empty list, R103. -/
theorem witness_FcsComputeIsInitBytesFinal : ([] : List Octet) = [] ∧ fcsCompute [] = 0x0000#16 := by decide +kernel
/-- Both sides of the bound of 3, V-CRC17 and V-CRC19. -/
theorem witness_FcsVerifyComparesLowOctetFirst : (bs [0, 0]).length < 3 ∧ fcsVerify (bs [0, 0]) = false ∧
    3 ≤ (bs [0x00, 0x78, 0xF0]).length ∧ fcsVerify (bs [0x00, 0x78, 0xF0]) = true := by decide +kernel
theorem witness_ResidueFormVerifies : 3 ≤ (bs [0x41, 0xF5, 0xA3]).length ∧ crcBytes 0xFFFF#16 (bs [0x41, 0xF5, 0xA3]) = 0xF0B8#16 := by decide +kernel
theorem witness_FlippedBitGivesChecksumMismatch : (presented uiFrame).clearStart.start = false ∧ Memory.wf (presented uiFrame).clearStart.buf = true ∧ Config.Floor.spec17.minLen ≤ (presented uiFrame).clearStart.len ∧
    fcsVerify (presented uiFrame).clearStart.octets = true ∧ 0 + 2 < (presented uiFrame).clearStart.len ∧ 19 + 2 < (presented uiFrame).clearStart.len ∧ 7 < 8 := by decide +kernel
/-- The shortest buffers, at the last covered octet. -/
theorem witness_FlippedBitGivesChecksumMismatch_short : Config.Floor.spec17.minLen ≤ (presented shortFrame).clearStart.len ∧ fcsVerify (presented shortFrame).clearStart.octets = true ∧
    14 + 2 < (presented shortFrame).clearStart.len ∧ Config.Floor.repo16.minLen ≤ (presented sixteen).clearStart.len ∧ fcsVerify (presented sixteen).clearStart.octets = true ∧
    13 + 2 < (presented sixteen).clearStart.len := by decide +kernel
/-- Trimmed lengths 0, 3 and 6 (V-A6, V-A4, V-A2). -/
theorem witness_AddrSlotRecord : (decodeSlot (slot 0x40 0x40 0x40 0x40 0x40 0x40 0x00)).callLen = 0 ∧
    2 + 1 = (decodeSlot (slot 0x82 0x40 0x84 0x40 0x40 0x40 0xFF)).callLen ∧ 5 + 1 = (decodeSlot (slot 0x9C 0x60 0x86 0x82 0x98 0x98 0x01)).callLen := by decide +kernel
/-- Two different slots that differ only in ignored bits. -/
theorem witness_IgnoredBitsChangeNoRecord : (0x82 / 2 = 0x83 / 2 ∧ 0xA0 / 2 = 0xA1 / 2 ∧ 0x40 / 2 = 0x41 / 2 ∧ 0x00 % 32 = 0xE0 % 32) ∧
    slot 0x82 0xA0 0xA4 0xA6 0x40 0x40 0x00 ≠ slot 0x83 0xA1 0xA5 0xA7 0x41 0x41 0xE0 ∧
    (slot 0x82 0xA0 0xA4 0xA6 0x40 0x40 0x00).o0.toNat / 2 = (slot 0x83 0xA1 0xA5 0xA7 0x41 0x41 0xE0).o0.toNat / 2 ∧
    (slot 0x82 0xA0 0xA4 0xA6 0x40 0x40 0x00).o1.toNat / 2 = (slot 0x83 0xA1 0xA5 0xA7 0x41 0x41 0xE0).o1.toNat / 2 ∧
    (slot 0x82 0xA0 0xA4 0xA6 0x40 0x40 0x00).o2.toNat / 2 = (slot 0x83 0xA1 0xA5 0xA7 0x41 0x41 0xE0).o2.toNat / 2 ∧
    (slot 0x82 0xA0 0xA4 0xA6 0x40 0x40 0x00).o3.toNat / 2 = (slot 0x83 0xA1 0xA5 0xA7 0x41 0x41 0xE0).o3.toNat / 2 ∧
    (slot 0x82 0xA0 0xA4 0xA6 0x40 0x40 0x00).o4.toNat / 2 = (slot 0x83 0xA1 0xA5 0xA7 0x41 0x41 0xE0).o4.toNat / 2 ∧
    (slot 0x82 0xA0 0xA4 0xA6 0x40 0x40 0x00).o5.toNat / 2 = (slot 0x83 0xA1 0xA5 0xA7 0x41 0x41 0xE0).o5.toNat / 2 ∧
    (slot 0x82 0xA0 0xA4 0xA6 0x40 0x40 0x00).ssid.toNat % 32 = (slot 0x83 0xA1 0xA5 0xA7 0x41 0x41 0xE0).ssid.toNat % 32 := by decide +kernel
/-- Failures below 14 octets, at 14, after one relay and at the cap; successes at 14, 21 and 70. -/
theorem witness_AddrFieldFailsExactly : addrField (bs (oneRelay.take 13)) = none ∧ addrField (bs (oneRelay.take 14)) = none ∧
    addrField (bs (oneRelay.take 20 ++ [0x02])) = none ∧ addrField (bs (eightRelays 0x10)) = none ∧
    (addrField (bs (uiFrame.take 14))).isSome = true ∧ (addrField (bs oneRelay)).isSome = true ∧ (addrField (bs (eightRelays 0x11))).isSome = true := by decide +kernel
theorem witness_AddrFieldRecords : (∃ f, addrField (bs (uiFrame.take 14)) = some f) ∧ (∃ f, addrField (bs oneRelay) = some f) ∧
    ∃ f, addrField (bs (eightRelays 0x11)) = some f :=
  ⟨Option.isSome_iff_exists.mp (by decide +kernel), Option.isSome_iff_exists.mp (by decide +kernel), Option.isSome_iff_exists.mp (by decide +kernel)⟩
/-- A region that goes on after the consumed octets, and another that agrees with it up to there only. -/
theorem witness_AddrFieldReadsOnlyItsFootprint : (addrField (bs (oneRelay ++ [0xAA]))).map (·.consumed) = some 21 ∧
    (bs (oneRelay ++ [0x55])).length = (bs (oneRelay ++ [0xAA])).length ∧ (bs (oneRelay ++ [0x55])).take 21 = (bs (oneRelay ++ [0xAA])).take 21 ∧
    bs (oneRelay ++ [0x55]) ≠ bs (oneRelay ++ [0xAA]) := by decide +kernel
/-- A next state in each case: success, fewer than 14 octets, 14 octets and more without an end of the chain. -/
theorem witness_AddrFieldRegisters :
    ((∃ t, exec (.addrField (bs oneRelay)) State.reset = .next t) ∧ (addrField (bs oneRelay)).isSome = true) ∧
    ((∃ t, exec (.addrField (bs (oneRelay.take 13))) State.reset = .next t) ∧ addrField (bs (oneRelay.take 13)) = none ∧ (bs (oneRelay.take 13)).length < 14) ∧
    ((∃ t, exec (.addrField (bs (oneRelay.take 14))) State.reset = .next t) ∧ addrField (bs (oneRelay.take 14)) = none ∧ 14 ≤ (bs (oneRelay.take 14)).length) :=
  ⟨⟨⟨_, rfl⟩, by decide +kernel⟩, ⟨⟨_, rfl⟩, by decide +kernel⟩, ⟨_, rfl⟩, by decide +kernel⟩
theorem witness_ControlRowsClassify : (Instr.kindI 0x00#8).wellFormed = true ∧ (Instr.kindI 0xFE#8).wellFormed = true ∧
    (Instr.kindS 0x01#8).wellFormed = true ∧ (Instr.kindS 0xFD#8).wellFormed = true ∧ (Instr.kindU 0x03#8).wellFormed = true ∧ (Instr.kindU 0xFF#8).wellFormed = true := by decide
/-- Each error and a frame, at a buffer the spec gives it for. -/
theorem witness_TooShortExactlyBelowTheFloor : (presented sixteen).len < Config.Floor.spec17.minLen ∧ ¬(presented sixteen).len < Config.Floor.repo16.minLen := by decide +kernel
/-- A frame through two relays, with a protocol identifier and a payload; a frame with neither (V-F8, V-F7). The relay file's clause has k = 0 to 7 in both. -/
theorem witness_DecodedFrameFields :
    (∃ t, frameDecodeAt .spec17 (presented relayFrame) = .next t ∧ (match t.result with | some (.ok f) => f.relays.length == 2 && f.protocolId == some 0xCF#8 | _ => false) = true) ∧
    ∃ t, frameDecodeAt .spec17 (presented shortFrame) = .next t ∧ (match t.result with | some (.ok f) => f.relays.length == 0 && f.protocolId == none | _ => false) = true :=
  ⟨exists_of_after (p := fun t => match t.result with | some (.ok f) => f.relays.length == 2 && f.protocolId == some 0xCF#8 | _ => false) (by decide +kernel),
    exists_of_after (p := fun t => match t.result with | some (.ok f) => f.relays.length == 0 && f.protocolId == none | _ => false) (by decide +kernel)⟩
/-- Two relays and a protocol identifier; no relay and none (V-F8, V-F7). -/
theorem witness_SuccessfulResultLaws :
    (∃ t, frameDecodeAt .spec17 (presented relayFrame) = .next t ∧ (match t.result with | some (.ok f) => f.relays.length == 2 && f.pidPresent | _ => false) = true) ∧
    ∃ t, frameDecodeAt .spec17 (presented shortFrame) = .next t ∧ (match t.result with | some (.ok f) => f.relays.length == 0 && !f.pidPresent | _ => false) = true :=
  ⟨exists_of_after (p := fun t => match t.result with | some (.ok f) => f.relays.length == 2 && f.pidPresent | _ => false) (by decide +kernel),
    exists_of_after (p := fun t => match t.result with | some (.ok f) => f.relays.length == 0 && !f.pidPresent | _ => false) (by decide +kernel)⟩
/-- A result of each status. -/
theorem witness_ErrorLeavesOnlyItsStatus :
    (∃ t, frameDecodeAt .spec17 (presented uiFrame) = .next t ∧ (t.result.map (·.status) == some 0#3) = true) ∧
    (∃ t, frameDecodeAt .spec17 (presented sixteen) = .next t ∧ (t.result.map (·.status) == some 1#3) = true) ∧
    (∃ t, frameDecodeAt .spec17 (presented (uiFrame.take 20 ++ [0, 0])) = .next t ∧ (t.result.map (·.status) == some 2#3) = true) ∧
    (∃ t, frameDecodeAt .spec17 (presented openFrame) = .next t ∧ (t.result.map (·.status) == some 3#3) = true) ∧
    ∃ t, frameDecodeAt .spec17 (presented cutFrame) = .next t ∧ (t.result.map (·.status) == some 4#3) = true :=
  ⟨exists_of_after (p := fun t => t.result.map (·.status) == some 0#3) (by decide +kernel), exists_of_after (p := fun t => t.result.map (·.status) == some 1#3) (by decide +kernel),
    exists_of_after (p := fun t => t.result.map (·.status) == some 2#3) (by decide +kernel), exists_of_after (p := fun t => t.result.map (·.status) == some 3#3) (by decide +kernel),
    exists_of_after (p := fun t => t.result.map (·.status) == some 4#3) (by decide +kernel)⟩
theorem witness_FloorsDifferOnlyAtSixteen : (presented sixteen).len = 16 ∧ (presented (sixteen.take 15)).len ≠ 16 ∧ (presented shortFrame).len ≠ 16 := by decide +kernel
/-- Two states with one buffer and different registers, result and phase. -/
theorem witness_DecodeIgnoresHistory : SameBuffer (presented uiFrame) (((presented uiFrame).setWork { Work.reset with crc := 0x1234#16, a := 99 }).setResult (.err .truncated)) ∧
    ((presented uiFrame).setWork { Work.reset with crc := 0x1234#16, a := 99 }).work ≠ (presented uiFrame).work :=
  ⟨⟨rfl, fun _ => rfl⟩, by decide +kernel⟩
theorem witness_EveryCallIsLikeTheFirst :
    (∃ t, step (presented uiFrame) = .next t ∧ t.result.isSome = true) ∧ ∃ t, step (presented openFrame) = .next t ∧ t.result.isSome = true :=
  ⟨exists_of_after (p := fun t => t.result.isSome) (by decide +kernel), exists_of_after (p := fun t => t.result.isSome) (by decide +kernel)⟩
/-- A frame whose payload has octets 0 to 3. -/
theorem witness_PayloadViewFollowsTheBuffer : Memory.wf (presented uiFrame).clearStart.buf = true ∧ (presented uiFrame).clearStart.start = false ∧
    ∃ t, exec .frameDecode (presented uiFrame).clearStart = .next t ∧ (match t.result with | some (.ok f) => decide (3 < f.payloadLen) | _ => false) = true :=
  ⟨by decide +kernel, rfl, exists_of_after (p := fun t => match t.result with | some (.ok f) => decide (3 < f.payloadLen) | _ => false) (by decide +kernel)⟩
theorem witness_NoInstructionWritesTheBuffer : ∃ t, exec .crcInit (presented uiFrame) = .next t := ⟨_, rfl⟩
theorem witness_ComponentsRaiseNoError : Instr.addrField (bs (oneRelay.take 13)) ≠ .frameDecode := by decide
theorem witness_StepsNeverFault : (presented uiFrame).sel = .frameDecode ∧ State.reset.start = false := by decide
/-- A presented buffer, no result standing: the invariant, and a next step. -/
theorem witness_StepKeepsTheInvariant : (presented uiFrame).Inv ∧ ∃ t, step (presented uiFrame) = .next t ∧ t.result.isSome = true :=
  ⟨⟨by decide +kernel, by decide +kernel, by decide +kernel,
      fun f h => by simp [presented, State.frame, State.reset] at h, [], by decide, by decide +kernel⟩,
    exists_of_after (p := fun t => t.result.isSome) (by decide +kernel)⟩
/-- A standing error, with one relay entry left: the invariant in phase DONE. -/
theorem witness_StepKeepsTheInvariant_done : (((presented uiFrame).setWork { Work.reset with relay := relayFile [Address.zero] }).setResult (.err .tooShort)).Inv :=
  ⟨by decide +kernel, by decide +kernel, by decide +kernel,
    fun f h => by simp [State.frame, Result.frame] at h, [Address.zero], by decide, rfl⟩
/-- Between calls both moves can be made: a presentation, and a write at either end of the buffer. -/
theorem witness_HostMovesKeepTheInvariant : (presented uiFrame).clearStart.Inv ∧ ((presented uiFrame).clearStart.present .crcByte (bs [0x41])).isSome = true ∧
    ((presented uiFrame).clearStart.hostWrite 0 0x00#8).isSome = true ∧ ((presented uiFrame).clearStart.hostWrite 21 0x00#8).isSome = true :=
  ⟨witness_StepKeepsTheInvariant.1, by decide +kernel, by decide +kernel, by decide +kernel⟩
/-- A standing frame whose view of 2 octets from offset 15 lies inside a buffer of 17 octets, and leaves one of 16. -/
theorem witness_PayloadReadStaysInsideTheBuffer :
    ((presented shortFrame).setResult (.ok ⟨.zero, .zero, [], 0x01#8, .supervisory, none, 15, 2⟩)).frame = some ⟨.zero, .zero, [], 0x01#8, .supervisory, none, 15, 2⟩ ∧
    15 + 2 ≤ (presented shortFrame).len ∧
    ((presented sixteen).setResult (.ok ⟨.zero, .zero, [], 0x01#8, .supervisory, none, 15, 2⟩)).frame = some ⟨.zero, .zero, [], 0x01#8, .supervisory, none, 15, 2⟩ ∧
    0 < 2 ∧ (presented sixteen).len < 15 + 2 := ⟨rfl, by decide +kernel, rfl, by decide, by decide +kernel⟩
theorem witness_HostMovesOnlyBetweenCalls : (presented uiFrame).start = true ∧ (∃ t, step (presented uiFrame) = .next t ∧ t.result.isSome = true) ∧
    (∃ t, State.reset.present .frameDecode (bs uiFrame) = some t) ∧ Memory.wf (presented uiFrame).clearStart.buf = true ∧ ∃ t, (presented uiFrame).clearStart.hostWrite 21 0x41#8 = some t :=
  ⟨rfl, witness_StepKeepsTheInvariant.2, ⟨_, rfl⟩, by decide +kernel, ⟨_, rfl⟩⟩
/-- The region's length in the register, at the buffer's length. -/
theorem witness_StagesRaiseOrGoToTheNext : { Work.reset with n := 22 }.n ≤ (presented uiFrame).len ∧ { Work.reset with n := 0 }.n ≤ State.reset.len := by decide +kernel

end Sys2Proof.Tests
end

section
/-! PROOF. Reads of the buffer by the octets presented. -/

namespace Sys2Proof.Machine

/-- A read of the buffer, by the octets presented: the octet there, or the fault past the last (R55, U8). -/
theorem memRead_eq_octets (s : State) (addr : Nat) : memRead s addr =
    (s.octets[addr]?).elim (.error (.fault (.bufferRange addr))) .ok := by
  rcases Nat.lt_or_ge addr s.len with h | h
  · rw [memRead_of_lt s h, State.octets_getElem? s h, Option.elim_some]
  · rw [memRead_of_ge s h, List.getElem?_eq_none (by simpa using h), Option.elim_none]

/-- The octet at an offset inside the buffer, read. -/
theorem memRead_eq_getD {s : State} {addr : Nat} (h : addr < s.len) : memRead s addr = .ok (s.octets.getD addr 0#8) := by
  rw [memRead_of_lt s h, s.octets_getD h]

/-- The payload through a view inside the buffer that stands is those octets of it. -/
theorem State.payload_of_inside {s : State} {f : Frame} (hf : s.frame = some f)
    (h : f.payloadOff + f.payloadLen ≤ s.len) :
    s.payload = some (.ok ((s.octets.drop f.payloadOff).take f.payloadLen)) := by
  rw [State.payload, hf, Option.map_some, readSpan_eq s _ _ h]

end Sys2Proof.Machine
end

section
/-! PROOF. What the address field decoder gives when it does not fail, and the registers it writes. -/

namespace Sys2Proof.Machine

/-- Every record of a slot is one that R41 allows: the trim drops exactly the padding (R122). -/
theorem addressInv_decodeSlot (slot : Slot) : AddressInv (decodeSlot slot) :=
  trimLen_spec (slotChars slot) 6

/-- A decoded slot is an address R41 allows, wherever the slot was read. -/
theorem addressInv_of_map_slot {o : Option Slot} {a : Address} (h : o.map decodeSlot = some a) : AddressInv a := by
  obtain ⟨slot, -, rfl⟩ := Option.map_eq_some_iff.mp h
  exact addressInv_decodeSlot slot

/-- A slot that ends before the cut is the slot of the whole buffer. -/
theorem slotAt_take {buf : List Octet} {n pos : Nat} (h : pos + 7 ≤ n) : slotAt (buf.take n) pos = slotAt buf pos := by
  have hget : ∀ i, i < 7 → (buf.take n).getD (pos + i) 0#8 = buf.getD (pos + i) 0#8 := fun i hi => by
    simp [List.getD_eq_getElem?_getD, show pos + i < n by omega]
  have hin : pos + 7 ≤ (buf.take n).length ↔ pos + 7 ≤ buf.length := by
    rw [List.length_take]; omega
  have h0 : (buf.take n).getD pos 0#8 = buf.getD pos 0#8 := hget 0 (by omega)
  simp only [slotAt_eq, hin, h0, hget 1 (by omega), hget 2 (by omega), hget 3 (by omega), hget 4 (by omega),
    hget 5 (by omega), hget 6 (by omega)]

/-- What a field decoded from a region holds (R126 to R129): the records are the region's slots in order, the consumed count is theirs, and `last` is 1 on the last slot of the chain only. -/
structure FieldLaws (reg : List Octet) (f : FieldOk) : Prop where
  destination : (slotAt reg 0).map decodeSlot = some f.destination
  source : (slotAt reg 7).map decodeSlot = some f.source
  relay : ∀ k, k < f.relays.length → (slotAt reg (14 + 7 * k)).map decodeSlot = f.relays[k]?
  length_le : f.relays.length ≤ 8
  consumed : f.consumed = 14 + 7 * f.relays.length
  consumed_le : f.consumed ≤ reg.length
  source_last : f.source.last = true ↔ f.relays = []
  relay_last : ∀ k r, f.relays[k]? = some r → (r.last = true ↔ k + 1 = f.relays.length)

/-- The relays a walk decoded lie inside the region. -/
theorem relays_end_le {reg : List Octet} {rs : List Address} (h14 : 14 ≤ reg.length)
    (h : ∀ i, i < rs.length → (slotAt reg (14 + 7 * i)).map decodeSlot = rs[i]?) :
    14 + 7 * rs.length ≤ reg.length := by
  match hk : rs.length with
  | 0 => exact h14
  | k + 1 =>
    have hs := h k (by omega)
    rw [List.getElem?_eq_getElem (by omega)] at hs
    obtain ⟨slot, hslot, -⟩ := Option.map_eq_some_iff.mp hs
    have := (slotAt_isSome_iff reg (14 + 7 * k)).mp (by simp [hslot])
    omega

/-- In a closed chain the entry at the end, and no other, has `last = 1`. -/
theorem relay_last_iff_of_chainClosed {rs : List Address} (hc : chainClosed rs = true)
    (hmid : ∀ i r, rs[i]? = some r → i + 1 < rs.length → r.last = false) {k : Nat} {r : Address}
    (hr : rs[k]? = some r) : r.last = true ↔ k + 1 = rs.length := by
  have hk : k < rs.length := (List.getElem?_eq_some_iff.mp hr).1
  constructor
  · intro hl
    by_contra hne
    exact absurd hl (by simp [hmid k r hr (by omega)])
  · intro hend
    have hlast : rs.getLast? = some r := by
      rw [List.getLast?_eq_getElem?, ← hend, Nat.add_sub_cancel, hr]
    simpa [chainClosed, hlast] using hc

/-- ADDR.FIELD needs the two mandatory slots (R125). -/
theorem addrWalk_eq_none_iff (reg : List Octet) : addrWalk reg = none ↔ reg.length < 14 := by
  constructor
  · intro h
    by_contra hlen
    obtain ⟨f, hf, -⟩ := addrWalk_spec (Nat.le_of_not_lt hlen)
    exact absurd h (by simp [hf])
  · intro h
    simp [addrWalk_eq, h]

/-- A field that ADDR.FIELD returns keeps the laws of a decoded field. -/
theorem fieldLaws_of_addrField {reg : List Octet} {f : FieldOk} (h : addrField reg = some f) : FieldLaws reg f := by
  obtain ⟨hw, hok⟩ := (addrField_eq_some_iff reg f).mp h
  have h14 : 14 ≤ reg.length := by
    by_contra hlt
    simp [(addrWalk_eq_none_iff reg).mpr (by omega)] at hw
  obtain ⟨g, hg, hd, hs, hcons, hlen, hget, hmid, hsl, -⟩ := addrWalk_spec h14
  obtain rfl : g = f := Option.some.inj (hg.symm.trans hw)
  refine ⟨hd, hs, hget, hlen, hcons, hcons ▸ relays_end_le h14 hget, ⟨hsl, fun hnil => ?_⟩, fun k r hr => ?_⟩
  · rcases hok with hlast | hclosed
    · exact hlast
    · simp [hnil, chainClosed_nil] at hclosed
  · have hne : g.relays ≠ [] := by
      intro hnil
      simp [hnil] at hr
    exact relay_last_iff_of_chainClosed (hok.resolve_left fun hlast => hne (hsl hlast)) hmid hr

/-- The walk of an ADDR.FIELD that fails on a region of at least 14 octets ran until eight relays were read or no slot was left (R127, R128). -/
theorem addrWalk_of_addrField_none {reg : List Octet} (h14 : 14 ≤ reg.length) (h : addrField reg = none) :
    ∃ f, addrWalk reg = some f ∧ (f.source.last || chainClosed f.relays) = false ∧
      f.consumed = 14 + 7 * f.relays.length ∧ f.relays.length = min 8 ((reg.length - 14) / 7) := by
  obtain ⟨f, hw, -, -, hcons, hlen, hget, -, -, hopen⟩ := addrWalk_spec h14
  have hfail : (f.source.last || chainClosed f.relays) = false := by
    simpa [addrField, hw] using h
  obtain ⟨hsrc, hchain⟩ := Bool.or_eq_false_iff.mp hfail
  have hle := relays_end_le h14 hget
  refine ⟨f, hw, hfail, hcons, ?_⟩
  obtain ⟨-, hfull | hout⟩ := (hopen hsrc).resolve_left (by simp [hchain])
  · omega
  · have := (slotAt_eq_none_iff reg _).mp hout
    omega

/-- ADDR.FIELD on the registers when it fails: the region's length and the cursors of the walk (log 11). -/
theorem Work.addrField_of_walk {w : Work} {reg : List Octet} {f : FieldOk} (hw : addrWalk reg = some f)
    (hfail : (f.source.last || chainClosed f.relays) = false) :
    w.addrField reg = { w with n := reg.length, pos := f.consumed, nrel := f.relays.length } := by
  simp [Work.addrField, hw, hfail]

/-- ADDR.FIELD on the registers when the region is too short for two slots (R125). -/
theorem Work.addrField_of_short {w : Work} {reg : List Octet} (h : reg.length < 14) :
    w.addrField reg = { w with n := reg.length } := by
  simp [Work.addrField, (addrWalk_eq_none_iff reg).mpr h]

/-- ADDR.FIELD always writes the region's length to `n` (R24). -/
@[simp] theorem Work.addrField_n (w : Work) (reg : List Octet) : (w.addrField reg).n = reg.length := by
  unfold Work.addrField
  split
  · rfl
  · dsimp only
    split <;> rfl

/-- ADDR.FIELD leaves the relay file, or fills it from index 0 with at most eight relays (R42). -/
theorem Work.addrField_relay (w : Work) (reg : List Octet) : (w.addrField reg).relay = w.relay ∨
    ∃ rs : List Address, rs.length ≤ 8 ∧ (w.addrField reg).relay = relayFile rs := by
  match h : Sys2Proof.Machine.addrField reg with
  | some f => exact .inr ⟨f.relays, (fieldLaws_of_addrField h).length_le, by rw [Work.addrField_ok h]⟩
  | none =>
    left
    rcases Nat.lt_or_ge reg.length 14 with hlt | h14
    · rw [Work.addrField_of_short hlt]
    · obtain ⟨f, hw, hfail, -⟩ := addrWalk_of_addrField_none h14 h
      rw [Work.addrField_of_walk hw hfail]

end Sys2Proof.Machine
end

section
/-! PROOF. FRAME.DECODE as one equation: the staged machine ends the call with the result of the listing. Every statement about a decode follows from it and from what the listing's frame holds. -/

namespace Sys2Proof.Machine

/-- How a call ends with a result, the one end of every decode (R159, R175). -/
def finishCall : Result → State → State
  | .ok f, s => complete f s
  | .err e, s => raiseError e s

/-- A result as what the stages answer: a frame, or the error raised (R30). -/
def Result.toStages : Result → Except Stop Frame
  | .ok f => .ok f
  | .err e => .error (.raise e)

theorem Result.toStages_eq_ok {r : Result} {f : Frame} (h : Except.ok f = r.toStages) : r = .ok f := by
  cases r <;> cases h
  rfl

/-- The stages stop with an error of the listing and with no fault. -/
theorem Result.toStages_eq_error {r : Result} {stop : Stop} (h : Except.error stop = r.toStages) :
    ∃ e, stop = .raise e ∧ r = .err e := by
  cases r <;> cases h
  exact ⟨_, rfl, rfl⟩

/-- The registers hold a decoded field: its records, its relays in the file, and its end in `A` (R27, R42). -/
structure Work.HoldsField (w : Work) (r : FieldOk) : Prop where
  a : w.a = r.consumed
  destination : w.destination = r.destination
  source : w.source = r.source
  relays : relaysOf w.relay w.nrel = r.relays

/-- The registers after an `S_ADDR` that does not fail hold the field. -/
theorem Work.holdsField_addrField {w : Work} {reg : List Octet} {r : FieldOk}
    (h : Sys2Proof.Machine.addrField reg = some r) : Work.HoldsField { w.addrField reg with stage := .sCtl } r := by
  rw [Work.addrField_ok h]
  exact ⟨rfl, rfl, rfl, relaysOf_relayFile (fieldLaws_of_addrField h).length_le⟩

/-- The control octet of a buffer whose address field is read (R154). -/
def listingControl (buf : List Octet) (r : FieldOk) : Octet :=
  buf.getD r.consumed 0#8

/-- Whether that control octet calls for a protocol identifier (R143, R156). -/
def listingPidPresent (buf : List Octet) (r : FieldOk) : Bool :=
  pidSelect (listingControl buf r) (classify (listingControl buf r))

/-- The frame of the listing when nothing is cut off (R154 to R159). -/
def listingFrame (buf : List Octet) (n : Nat) (r : FieldOk) : Frame where
  destination := r.destination
  source := r.source
  relays := r.relays
  control := listingControl buf r
  kind := kindOf (classify (listingControl buf r))
  protocolId := if listingPidPresent buf r then some (buf.getD (r.consumed + 1) 0#8) else none
  payloadOff := r.consumed + 1 + (if listingPidPresent buf r then 1 else 0)
  payloadLen := n - (r.consumed + 1 + (if listingPidPresent buf r then 1 else 0))

/-- The listing after the address field, by its two tests and its frame. -/
theorem referenceTail_eq (buf : List Octet) (n : Nat) (r : FieldOk) : referenceTail buf n r =
    if r.consumed ≥ n then .err .truncated
    else if listingPidPresent buf r && decide (r.consumed + 1 ≥ n) then .err .truncated
    else .ok (listingFrame buf n r) :=
  rfl

/-- `pid_present` of registers that hold the classified control octet is the listing's (R156). -/
theorem pidSelect_of_control {buf : List Octet} {w : Work} {r : FieldOk} (hc : w.control = listingControl buf r)
    (hf : w.flags = classify w.control) : pidSelect w.control w.flags = listingPidPresent buf r := by
  rw [hf, hc]
  rfl

/-- `S_PAY` and `S_DONE`, over registers that hold the address field, the classified control octet and the protocol identifier, give the frame of the listing (R158, R159). -/
theorem frameOf_stagePay {buf : List Octet} {w : Work} {r : FieldOk} (h : w.HoldsField r)
    (hc : w.control = listingControl buf r) (hf : w.flags = classify w.control) :
    frameOf (stagePay { w.selectPid with protocolId := (listingFrame buf w.n r).protocolId, stage := .sPay }) =
      listingFrame buf w.n r := by
  obtain ⟨ha, hd, hs, hrel⟩ := h
  simp only [frameOf, stagePay, Work.selectPid, ha, hd, hs, hrel, hf, hc, listingFrame]
  rfl

/-- From `S_PID` on, over registers that hold the address field and the classified control octet, the stages give the frame of the listing unless the protocol identifier is cut off (R156 to R159). -/
theorem stagesFromPid_eq {s : State} {w : Work} {r : FieldOk} (hn : w.n ≤ s.len) (h : w.HoldsField r)
    (hc : w.control = listingControl s.octets r) (hf : w.flags = classify w.control) :
    Except.map frameOf (do
        let w ← stagePid s w
        return stagePay w) =
      (if listingPidPresent s.octets r && decide (r.consumed + 1 ≥ w.n) then Result.err .truncated
      else .ok (listingFrame s.octets w.n r)).toStages := by
  have hframe := frameOf_stagePay h hc hf
  rw [stagePid_eq s w hn, pidSelect_of_control hc hf, h.a]
  by_cases hp : listingPidPresent s.octets r = true
  · by_cases hend : r.consumed + 1 ≥ w.n
    · simp only [hp, hend, if_true, decide_true, Bool.and_self]
      rfl
    · have hpid : (listingFrame s.octets w.n r).protocolId = some (Memory.byteAt s.buf (r.consumed + 1)) := by
        rw [← s.octets_getD (by omega)]
        exact if_pos hp
      rw [hpid] at hframe
      simp only [hp, hend, if_true, if_false, decide_false, Bool.and_false]
      exact congrArg Except.ok hframe
  · have hpid : (listingFrame s.octets w.n r).protocolId = none := if_neg hp
    rw [hpid] at hframe
    simp only [hp, Bool.false_and]
    exact congrArg Except.ok hframe

/-- The listing after its checksum test, over a region of `n` octets (R153). -/
def listingFromAddr (buf : List Octet) (n : Nat) : Result :=
  match addrField (buf.take n) with
  | none => .err .malformedAddressField
  | some r => referenceTail buf n r

/-- The listing by its first two tests (R151, R152). -/
theorem referenceDecode_eq (m : Config.Floor) (buf : List Octet) : referenceDecode m buf =
    if buf.length < m.minLen then .err .tooShort
    else if fcsVerify buf = false then .err .checksumMismatch
    else listingFromAddr buf (buf.length - 2) :=
  rfl

/-- From `S_CTL` on, over registers that hold the address field, the stages give what the listing gives after its own (R154 to R159). -/
theorem stagesFromCtl_eq {s : State} {w : Work} {r : FieldOk} (hn : w.n ≤ s.len) (h : w.HoldsField r) :
    Except.map frameOf (do
        let w ← stageCtl s w
        let w ← stagePid s w
        return stagePay w) = (referenceTail s.octets w.n r).toStages := by
  rw [stageCtl_eq _ _ hn, referenceTail_eq, h.a]
  by_cases hend : r.consumed ≥ w.n
  · simp only [hend, if_true]
    rfl
  · have hctl : Memory.byteAt s.buf r.consumed = listingControl s.octets r :=
      (s.octets_getD (by omega)).symm
    simp only [hend, if_false, hctl]
    exact stagesFromPid_eq (w := { w.takeControl _ with stage := .sPid }) hn
      ⟨h.a, h.destination, h.source, h.relays⟩ rfl rfl

/-- From `S_ADDR` on, over registers whose `n` is the region's length, the stages give what the listing gives after its checksum test (R153 to R159). -/
theorem stagesFromAddr_eq {s : State} {w : Work} (hn : w.n ≤ s.len) :
    Except.map frameOf (do
        let w ← stageAddr s w
        let w ← stageCtl s w
        let w ← stagePid s w
        return stagePay w) =
      (listingFromAddr s.octets w.n).toStages := by
  rw [stageAddr_eq s w hn, listingFromAddr]
  have hreg : (w.addrField (s.octets.take w.n)).n = w.n := by simp [hn]
  cases hr : addrField (s.octets.take w.n) with
  | none => rfl
  | some r =>
    have htail := stagesFromCtl_eq (s := s) (by simp [hn]) (Work.holdsField_addrField (w := w) hr)
    rw [hreg] at htail
    exact htail

/-- The stages give the result of the listing (R150 to R159), from any registers and under both floors. -/
theorem pipeline_map_frameOf (m : Config.Floor) (s : State) :
    (pipeline m s).map frameOf = (referenceDecode m s.octets).toStages := by
  unfold pipeline
  rw [stageLen_eq, referenceDecode_eq, State.octets_length]
  by_cases hlen : s.len < m.minLen
  · simp only [hlen, if_true]
    rfl
  · simp only [hlen, if_false]
    change Except.map frameOf (stageFcs s _ >>= _) = _
    rw [stageFcs_eq, Work.fcsVerify_eq]
    by_cases hfcs : fcsVerify s.octets = true
    · simp only [hfcs, if_true]
      exact stagesFromAddr_eq (Nat.sub_le _ _)
    · simp only [hfcs]
      rfl

/-- FRAME.DECODE ends the call with the listing's result. -/
theorem frameDecodeAt_eq (m : Config.Floor) (s : State) :
    frameDecodeAt m s = .next (finishCall (referenceDecode m s.octets) s) := by
  have h := pipeline_map_frameOf m s
  unfold frameDecodeAt
  cases hp : pipeline m s with
  | ok w =>
    rw [hp] at h
    rw [Result.toStages_eq_ok h]
    rfl
  | error stop =>
    rw [hp] at h
    obtain ⟨e, rfl, hr⟩ := Result.toStages_eq_error h
    rw [hr]
    rfl

@[simp] theorem finishCall_result (r : Result) (s : State) : (finishCall r s).result = some r := by cases r <;> rfl
@[simp] theorem finishCall_phase (r : Result) (s : State) : (finishCall r s).phase = .done := by cases r <;> rfl
@[simp] theorem finishCall_buf (r : Result) (s : State) : (finishCall r s).buf = s.buf := by cases r <;> rfl
@[simp] theorem finishCall_len (r : Result) (s : State) : (finishCall r s).len = s.len := by cases r <;> rfl
@[simp] theorem finishCall_start (r : Result) (s : State) : (finishCall r s).start = s.start := by cases r <;> rfl
@[simp] theorem finishCall_sel (r : Result) (s : State) : (finishCall r s).sel = s.sel := by cases r <;> rfl
@[simp] theorem finishCall_ret (r : Result) (s : State) : (finishCall r s).ret = s.ret := by cases r <;> rfl
@[simp] theorem finishCall_frame (r : Result) (s : State) : (finishCall r s).frame = r.frame := by cases r <;> rfl

theorem Result.frame_eq_some_iff {r : Result} {f : Frame} : r.frame = some f ↔ r = .ok f := by
  cases r <;> simp [Result.frame]

/-- The relays of a result: those of its frame, none for an error (R33, R35). -/
def Result.relays : Result → List Address
  | .ok f => f.relays
  | .err _ => []

/-- After a call the relay file holds the relays of the result, whatever it held before (R42, log 14). -/
@[simp] theorem finishCall_relay (r : Result) (s : State) : (finishCall r s).work.relay = relayFile r.relays := by
  cases r <;> rfl

/-- A call leaves the buffer as it was (R56). -/
theorem sameBuffer_finishCall (r : Result) (s : State) : SameBuffer s (finishCall r s) :=
  ⟨finishCall_len r s, fun addr => by simp [memRead]⟩

/-- The only next state of a decode. -/
theorem eq_finishCall_of_next {m : Config.Floor} {s t : State} (h : frameDecodeAt m s = .next t) :
    t = finishCall (referenceDecode m s.octets) s :=
  (Host.Outcome.next.inj ((frameDecodeAt_eq m s).symm.trans h)).symm

/-- A decode that ends with a frame completed the frame of the listing. -/
theorem referenceDecode_of_next_ok {m : Config.Floor} {s t : State} {f : Frame} (h : frameDecodeAt m s = .next t)
    (hf : t.result = some (.ok f)) : referenceDecode m s.octets = .ok f := by
  simpa [eq_finishCall_of_next h] using hf

/-- Right after a call the payload is read from the buffer as it stood at `start` (R65). -/
theorem finishCall_payload {s : State} {f : Frame} (h : f.payloadOff + f.payloadLen ≤ s.len) :
    (finishCall (.ok f) s).payload = some (.ok ((s.octets.drop f.payloadOff).take f.payloadLen)) := by
  rw [← (sameBuffer_finishCall (.ok f) s).octets_eq]
  exact State.payload_of_inside (finishCall_frame _ s) (by simpa using h)

/-- After a call that ended with an error no frame field, payload or relay entry has a value (R33, R42). -/
theorem no_frame_after_error (e : DecodeError) (s : State) :
    (finishCall (.err e) s).payload = none ∧ ∀ k, (finishCall (.err e) s).relayEntry k = none := by
  simp [State.payload, State.relayEntry, Result.frame]

end Sys2Proof.Machine
end

section
/-! PROOF. What the frame of a successful decode holds. -/

namespace Sys2Proof.Machine

section
variable (buf : List Octet) (n : Nat) (r : FieldOk)

@[simp] theorem listingFrame_destination : (listingFrame buf n r).destination = r.destination := rfl
@[simp] theorem listingFrame_source : (listingFrame buf n r).source = r.source := rfl
@[simp] theorem listingFrame_relays : (listingFrame buf n r).relays = r.relays := rfl
@[simp] theorem listingFrame_payloadOff : (listingFrame buf n r).payloadOff =
    r.consumed + 1 + (if listingPidPresent buf r then 1 else 0) := rfl
@[simp] theorem listingFrame_payloadLen : (listingFrame buf n r).payloadLen = n - (listingFrame buf n r).payloadOff := rfl

end

@[simp] theorem listingFrame_pidPresent (buf : List Octet) (n : Nat) (r : FieldOk) :
    (listingFrame buf n r).pidPresent = listingPidPresent buf r := by
  cases h : listingPidPresent buf r <;> simp [Frame.pidPresent, listingFrame, h]

/-- `PID_PRESENT` by the value of the control octet (R143). -/
theorem listingPidPresent_iff (buf : List Octet) (r : FieldOk) : listingPidPresent buf r = true ↔
    (listingControl buf r).toNat % 2 = 0 ∨ (listingControl buf r).toNat = 3 :=
  pidSelect_classify_iff _

/-- The listing ends with a frame after the address field when the control octet, and a protocol identifier it calls for, lie inside the region (R154 to R159). -/
theorem referenceTail_eq_ok_iff {buf : List Octet} {n : Nat} {r : FieldOk} {f : Frame} :
    referenceTail buf n r = .ok f ↔
      r.consumed + 1 + (if listingPidPresent buf r then 1 else 0) ≤ n ∧ listingFrame buf n r = f := by
  rw [referenceTail_eq]
  by_cases hctl : r.consumed ≥ n
  · have hout : ¬ r.consumed + 1 + (if listingPidPresent buf r then 1 else 0) ≤ n := by omega
    simp [hctl, hout]
  · by_cases hp : listingPidPresent buf r = true
    · by_cases hpid : r.consumed + 1 ≥ n
      · simp [hctl, hp, hpid, show ¬ r.consumed + 1 + 1 ≤ n by omega]
      · simp [hctl, hp, hpid, show r.consumed + 1 + 1 ≤ n by omega]
    · simp [hctl, hp, show r.consumed + 1 ≤ n by omega]

theorem listingFromAddr_eq_ok_iff {buf : List Octet} {n : Nat} {f : Frame} :
    listingFromAddr buf n = .ok f ↔ ∃ r, addrField (buf.take n) = some r ∧ referenceTail buf n r = .ok f := by
  unfold listingFromAddr
  split <;> simp_all

/-- A frame of the listing passed its first two tests. -/
theorem listingFromAddr_of_referenceDecode {m : Config.Floor} {buf : List Octet} {f : Frame}
    (h : referenceDecode m buf = .ok f) : listingFromAddr buf (buf.length - 2) = .ok f := by
  rw [referenceDecode_eq] at h
  split at h
  · cases h
  · split at h
    · cases h
    · exact h

/-- A decoded frame is the listing's frame of a field that keeps its laws, with the control octet and a selected protocol identifier inside the region (R151 to R159). -/
theorem exists_field_of_referenceDecode {m : Config.Floor} {buf : List Octet} {f : Frame}
    (h : referenceDecode m buf = .ok f) : ∃ r, FieldLaws (buf.take (buf.length - 2)) r ∧
      r.consumed + 1 + (if listingPidPresent buf r then 1 else 0) ≤ buf.length - 2 ∧
      listingFrame buf (buf.length - 2) r = f := by
  obtain ⟨r, hr, htail⟩ := listingFromAddr_eq_ok_iff.mp (listingFromAddr_of_referenceDecode h)
  exact ⟨r, fieldLaws_of_addrField hr, referenceTail_eq_ok_iff.mp htail⟩

/-- The protocol identifier of the listing's frame is the octet after the control octet (R38). -/
theorem getD_of_listingFrame_protocolId {buf : List Octet} {n : Nat} {r : FieldOk} {p : Octet}
    (h : (listingFrame buf n r).protocolId = some p) :
    listingPidPresent buf r = true ∧ buf.getD (r.consumed + 1) 0#8 = p := by
  cases hp : listingPidPresent buf r <;> simp [listingFrame, hp] at h ⊢
  exact h

/-- The records of a field that lies inside the region are those of the buffer's slots (R34, R35). -/
theorem FieldLaws.slots_of_buffer {buf : List Octet} {n : Nat} {r : FieldOk} (h : FieldLaws (buf.take n) r)
    (hin : r.consumed ≤ n) :
    (slotAt buf 0).map decodeSlot = some r.destination ∧ (slotAt buf 7).map decodeSlot = some r.source ∧
    ∀ k, k < r.relays.length → (slotAt buf (14 + 7 * k)).map decodeSlot = r.relays[k]? := by
  rw [h.consumed] at hin
  refine ⟨?_, ?_, fun k hk => ?_⟩
  · rw [← h.destination, slotAt_take (by omega)]
  · rw [← h.source, slotAt_take (by omega)]
  · rw [← h.relay k hk, slotAt_take (by omega)]

section
variable {reg : List Octet} {r : FieldOk}

theorem FieldLaws.addressInv (h : FieldLaws reg r) : ∀ a ∈ r.destination :: r.source :: r.relays, AddressInv a := by
  intro a ha
  rcases List.mem_cons.mp ha with rfl | ha
  · exact addressInv_of_map_slot h.destination
  rcases List.mem_cons.mp ha with rfl | ha
  · exact addressInv_of_map_slot h.source
  obtain ⟨k, hk⟩ := List.mem_iff_getElem?.mp ha
  exact addressInv_of_map_slot ((h.relay k (List.getElem?_eq_some_iff.mp hk).1).trans hk)

theorem FieldLaws.source_open (h : FieldLaws reg r) (hne : r.relays ≠ []) : r.source.last = false :=
  Bool.eq_false_iff.mpr fun hl => hne (h.source_last.mp hl)

theorem FieldLaws.chainClosed (h : FieldLaws reg r) (hne : r.relays ≠ []) :
    Sys2Proof.Machine.chainClosed r.relays = true := by
  have hpos := List.length_pos_iff.mpr hne
  have hget : r.relays[r.relays.length - 1]? = some (r.relays.getLast hne) := by
    rw [← List.getLast?_eq_getElem?, List.getLast?_eq_some_getLast hne]
  have hlast := (h.relay_last _ _ hget).mpr (by omega)
  simpa [Sys2Proof.Machine.chainClosed, List.getLast?_eq_some_getLast hne] using hlast

/-- No relay before the last has `last = 1` (R43). -/
theorem FieldLaws.dropLast_open (h : FieldLaws reg r) : ∀ a ∈ r.relays.dropLast, a.last = false := by
  intro a ha
  obtain ⟨k, hk⟩ := List.mem_iff_getElem?.mp ha
  rw [List.getElem?_dropLast] at hk
  split at hk
  · rename_i hlt
    exact Bool.eq_false_iff.mpr fun hl => by have := (h.relay_last k a hk).mp hl; omega
  · cases hk

end

/-- The listing's frame keeps the laws of a successful result (R43). -/
theorem FieldLaws.frameInv {reg : List Octet} {r : FieldOk} (h : FieldLaws reg r) (buf : List Octet) (n : Nat) :
    FrameInv (listingFrame buf n r) := by
  refine ⟨h.length_le, h.addressInv, h.source_last.mpr,
    fun hne => ⟨h.source_open hne, h.chainClosed hne, h.dropLast_open⟩, rfl, ?_, ?_⟩
  · rw [listingFrame_pidPresent]
    exact listingPidPresent_iff buf r
  · rw [listingFrame_pidPresent]
    simp only [listingFrame_payloadOff, listingFrame_relays, h.consumed]
    omega

/-- The frame of a decode keeps the laws of a successful result (R43). -/
theorem frameInv_of_referenceDecode {m : Config.Floor} {buf : List Octet} {f : Frame}
    (h : referenceDecode m buf = .ok f) : FrameInv f := by
  obtain ⟨r, hr, -, rfl⟩ := exists_field_of_referenceDecode h
  exact hr.frameInv buf _

/-- A decode gives at most eight relays, none with an error. -/
theorem relays_length_le_of_referenceDecode (m : Config.Floor) (buf : List Octet) :
    (referenceDecode m buf).relays.length ≤ 8 := by
  cases h : referenceDecode m buf with
  | ok f =>
    obtain ⟨hlen, -⟩ := frameInv_of_referenceDecode h
    exact hlen
  | err e => exact Nat.zero_le 8

end Sys2Proof.Machine
end

section
/-! PROOF. The stages that need a fact about their operand to go on. -/

namespace Sys2Proof.Machine

/-- Both floors leave room for an FCS (R10). -/
theorem minLen_ge_two (m : Config.Floor) : 2 ≤ m.minLen := by
  cases m <;> decide

/-- `S_ADDR` either raises its error or leaves `n` and the end of the field inside the region (R153). -/
theorem stageAddr_cases {s : State} {w : Work} (hn : w.n ≤ s.len) :
    stageAddr s w = .error (.raise .malformedAddressField) ∨
      ∃ w', stageAddr s w = .ok w' ∧ w'.stage = .sCtl ∧ w'.n = w.n ∧ w'.a ≤ w'.n := by
  have hreg : (s.octets.take w.n).length = w.n := by simp [hn]
  rw [stageAddr_eq s w hn]
  cases hr : addrField (s.octets.take w.n) with
  | none => exact .inl rfl
  | some r =>
    refine .inr ⟨_, rfl, rfl, (Work.addrField_n _ _).trans hreg, ?_⟩
    have hle := (fieldLaws_of_addrField hr).consumed_le
    rw [Work.addrField_ok hr]
    exact hle

end Sys2Proof.Machine
end

section
/-! PROOF. What an instruction and a step can do to the state. -/

namespace Sys2Proof.Machine

theorem Work.fcsVerify_relay (w : Work) (body : List Octet) : (w.fcsVerify body).relay = w.relay := by
  rw [Work.fcsVerify_eq]

/-- Every instruction but FRAME.DECODE writes registers and the returned value only; of the relay file it writes none, or fills it from index 0 upward (R42). -/
theorem exec_component_eq {i : Instr} (hi : i ≠ .frameDecode) (s : State) :
    ∃ w v, exec i s = .next { s with work := w, ret := v } ∧
      (w.relay = s.work.relay ∨ ∃ rs : List Address, rs.length ≤ 8 ∧ w.relay = relayFile rs) := by
  cases i with
  | crcInit => exact ⟨_, _, rfl, .inl rfl⟩
  | crcByte b => exact ⟨_, _, rfl, .inl rfl⟩
  | crcFinal => exact ⟨_, _, rfl, .inl rfl⟩
  | fcsCompute data => exact ⟨_, _, rfl, .inl rfl⟩
  | fcsVerify body => exact ⟨_, _, rfl, .inl (s.work.fcsVerify_relay body)⟩
  | addrSlot slot => exact ⟨_, _, rfl, .inl rfl⟩
  | addrField reg => exact ⟨_, _, rfl, s.work.addrField_relay reg⟩
  | ctlClassify c => exact ⟨_, _, rfl, .inl rfl⟩
  | ctlPidsel c => exact ⟨_, _, rfl, .inl rfl⟩
  | frameDecode => exact absurd rfl hi
  | kindI c => exact ⟨_, _, rfl, .inl rfl⟩
  | kindS c => exact ⟨_, _, rfl, .inl rfl⟩
  | kindU c => exact ⟨_, _, rfl, .inl rfl⟩
  | ctlUi => exact ⟨_, _, rfl, .inl rfl⟩
  | callsignOctet o => exact ⟨_, _, rfl, .inl rfl⟩
  | ssidOctet o => exact ⟨_, _, rfl, .inl rfl⟩
  | fcsField l h => exact ⟨_, _, rfl, .inl rfl⟩

/-- FRAME.DECODE runs under the floor the hardware is built with and ends the call (R10, R150). -/
theorem exec_frameDecode_eq (s : State) :
    exec .frameDecode s = .next (finishCall (referenceDecode Config.floor s.octets) s) :=
  frameDecodeAt_eq Config.floor s

theorem step_of_decode_ok {s : State} {i : Instr} (hs : s.start = true) (h : decode s.sel s.octets = .ok i) :
    step s = exec i s.clearStart := by
  simp [step, hs, h]

theorem step_of_decode_error {s : State} {r : Reject} (hs : s.start = true) (h : decode s.sel s.octets = .error r) :
    step s = .refused (.badRequest r) := by
  simp [step, hs, h]

theorem step_of_no_start {s : State} (hs : s.start = false) : step s = .next s := by
  simp [step, hs]

/-- A step that answers a next state changed nothing, or ran one instruction with the event taken (R46, log 1). -/
theorem step_cases {s t : State} (h : step s = .next t) : t = s ∨ ∃ i, exec i s.clearStart = .next t := by
  cases hs : s.start with
  | false => exact .inl (Host.Outcome.next.inj ((step_of_no_start hs).symm.trans h)).symm
  | true =>
    cases hd : decode s.sel s.octets with
    | ok i => exact .inr ⟨i, (step_of_decode_ok hs hd).symm.trans h⟩
    | error r => exact absurd ((step_of_decode_error hs hd).symm.trans h) (by simp)

end Sys2Proof.Machine
end

section
/-! PROOF. The machine's invariant holds at reset and is kept by every instruction, every step and every move of the host. -/

namespace Sys2Proof.Machine

theorem inv_reset : State.reset.Inv :=
  ⟨rfl, rfl, by simp [State.reset], fun f hf => by simp [State.frame, State.reset] at hf, [], Nat.zero_le 8, by decide +kernel⟩

variable {s : State}

theorem State.Inv.clearStart (h : s.Inv) : s.clearStart.Inv := h

/-- Registers and the returned value written, the relay file left or filled from index 0 upward. -/
theorem State.Inv.setRegisters (h : s.Inv) {w : Work} {v : Option Value}
    (hw : w.relay = s.work.relay ∨ ∃ rs : List Address, rs.length ≤ 8 ∧ w.relay = relayFile rs) :
    State.Inv { s with work := w, ret := v } := by
  obtain ⟨hwf, hin, hphase, hframe, hfile⟩ := h
  refine ⟨hwf, hin, hphase, hframe, ?_⟩
  rcases hw with hsame | hfill
  · rwa [← hsame] at hfile
  · exact hfill

/-- The end of a decode: the result of a listing stands, in phase DONE. -/
theorem State.Inv.finishCall (h : s.Inv) (m : Config.Floor) (buf : List Octet) :
    (finishCall (referenceDecode m buf) s).Inv := by
  obtain ⟨hwf, hin, -, -, -⟩ := h
  exact ⟨by simpa using hwf, by simpa using hin, by simp,
    fun f hf => frameInv_of_referenceDecode (Result.frame_eq_some_iff.mp (by simpa using hf)),
    _, relays_length_le_of_referenceDecode m buf, finishCall_relay _ s⟩

theorem State.Inv.exec (h : s.Inv) {i : Instr} {t : State} (ht : exec i s = .next t) : t.Inv := by
  by_cases hi : i = .frameDecode
  · subst hi
    rw [exec_frameDecode_eq] at ht
    cases ht
    exact h.finishCall _ _
  · obtain ⟨w, v, heq, hw⟩ := exec_component_eq hi s
    rw [heq] at ht
    cases ht
    exact h.setRegisters hw

theorem State.Inv.step (h : s.Inv) {t : State} (ht : step s = .next t) : t.Inv := by
  rcases step_cases ht with rfl | ⟨i, hexec⟩
  · exact h
  · exact h.clearStart.exec hexec

/-- A presentation replaces the buffer by octets in canonical form. -/
theorem State.Inv.load (h : s.Inv) (op : Op) (bs : List Octet) : (s.load op bs).Inv := by
  obtain ⟨-, -, hrest⟩ := h
  exact ⟨Memory.wf_ofOctets bs, by simpa using Memory.within_ofOctets 0 bs, hrest⟩

/-- A write inside the buffer keeps its canonical form. -/
theorem State.Inv.setOctet (h : s.Inv) {addr : Nat} (haddr : addr < s.len) (v : Octet) : (s.setOctet addr v).Inv := by
  obtain ⟨hwf, hin, hrest⟩ := h
  exact ⟨Memory.wf_write hwf, Memory.within_write haddr hin, hrest⟩

end Sys2Proof.Machine
end

section
/-! PROOF. The statements of the state family, from the laws above. -/

namespace Sys2Proof.Machine

/-- Settles O41, from the inversion of a step and the invariant of every instruction. -/
theorem stepKeepsTheInvariant : Obligations.StepKeepsTheInvariant :=
  fun _ _ h ht => h.step ht

/-- Settles O42. -/
theorem resetMeetsTheInvariant : Obligations.ResetMeetsTheInvariant :=
  inv_reset

/-- Settles O45, by the memory laws of a presentation and a write. -/
theorem hostMovesKeepTheInvariant : Obligations.HostMovesKeepTheInvariant := by
  intro s h
  refine ⟨fun op bs t ht => ?_, fun addr v t ht => ?_⟩
  · obtain ⟨-, rfl⟩ := State.present_eq_some_iff.mp ht
    exact h.load op bs
  · obtain ⟨-, haddr, rfl⟩ := State.hostWrite_eq_some_iff.mp ht
    exact h.setOctet haddr v

/-- Settles O6. -/
theorem stepRunsThePresentedOperation : Obligations.StepRunsThePresentedOperation :=
  fun _ => ⟨fun _ => step_of_decode_ok, fun _ => step_of_decode_error, step_of_no_start⟩

/-- Settles O7: the octets of a presentation are those presented, and the step decodes them. -/
theorem presentedOctetsReachTheOperation : Obligations.PresentedOctetsReachTheOperation := by
  intro s op bs hs
  refine ⟨s.load op bs, State.present_eq_some_iff.mpr ⟨hs, rfl⟩, State.octets_load s op bs, fun addr => ?_,
    fun i hi => step_of_decode_ok rfl (by simpa using hi)⟩
  rw [memRead_eq_octets, State.octets_load]
  cases bs[addr]? <;> rfl

/-- Settles O20: an ADDR.FIELD that succeeds, one of a region too short for two slots, and one whose walk leaves the chain open. -/
theorem addrFieldRegisters : Obligations.AddrFieldRegisters := by
  intro reg s t ht
  obtain rfl : (s.setWork (s.work.addrField reg)).setRet (.field (addrField reg)) = t := Host.Outcome.next.inj ht
  simp only [State.setRet_work, State.setWork_work]
  refine ⟨Work.addrField_n _ _, fun f hf => ?_, fun hnone => ?_⟩
  · rw [Work.addrField_ok hf, (fieldLaws_of_addrField hf).consumed]
    exact ⟨rfl, fun k hk => relayFile_getElem? f.relays hk⟩
  · rcases Nat.lt_or_ge reg.length 14 with hshort | h14
    · rw [Work.addrField_of_short hshort]
      exact ⟨rfl, fun _ => ⟨rfl, rfl⟩, fun h14 => absurd hshort (by omega)⟩
    · obtain ⟨f, hw, hfail, hcons, hlen⟩ := addrWalk_of_addrField_none h14 hnone
      rw [Work.addrField_of_walk hw hfail]
      exact ⟨rfl, fun hshort => absurd hshort (by omega), fun _ => ⟨hcons, hlen⟩⟩

/-- Settles O46, by the laws of a run of reads. -/
theorem payloadReadStaysInsideTheBuffer : Obligations.PayloadReadStaysInsideTheBuffer := by
  intro s f hf
  refine ⟨State.payload_of_inside hf, fun hpos hout => ?_⟩
  rw [State.payload, hf, Option.map_some, readSpan_fault s _ _ hpos hout]

/-- Settles O35: the result is the listing's of the octets, and they are all that two states share. -/
theorem decodeIgnoresHistory : Obligations.DecodeIgnoresHistory := by
  intro m s s' h
  refine ⟨_, _, frameDecodeAt_eq m s, frameDecodeAt_eq m s', ?_⟩
  simp [h.octets_eq]

/-- Settles O33. -/
theorem errorLeavesOnlyItsStatus : Obligations.ErrorLeavesOnlyItsStatus := by
  intro m s t r ht hr
  obtain rfl : t = finishCall r s := by
    have h := eq_finishCall_of_next ht
    rw [h, finishCall_result, Option.some.injEq] at hr
    rw [h, hr]
  refine ⟨?_, ?_⟩
  · rintro e rfl
    obtain ⟨hpayload, hentry⟩ := no_frame_after_error e s
    exact ⟨rfl, rfl, hpayload, hentry, fun k hk => relayFile_getElem? [] hk, rfl, rfl, rfl, sameBuffer_finishCall _ s⟩
  · cases r with
    | ok f => simp [Result.status]
    | err e => cases e <;> simp [Result.status, DecodeError.code]

/-- Settles O32, from the laws of the decoded field and the tests of the listing. -/
theorem successfulResultLaws : Obligations.SuccessfulResultLaws := by
  intro m s t f ht hf
  obtain ⟨r, hr, hend, rfl⟩ := exists_field_of_referenceDecode (referenceDecode_of_next_ok ht hf)
  have hlen := hr.length_le
  rw [hr.consumed, State.octets_length] at hend
  simp only [listingFrame_pidPresent, listingFrame_destination, listingFrame_source, listingFrame_relays,
    listingFrame_payloadOff, hr.consumed]
  refine ⟨hlen, fun a ha => ?_, hr.source_last.mpr, fun hne => ⟨hr.source_open hne, hr.relay_last⟩, ?_, ?_, ?_⟩
  · obtain ⟨hcall, -⟩ := hr.addressInv a ha
    exact ⟨hcall, Nat.le_of_lt_succ a.suffix.isLt⟩
  · omega
  · omega
  · split <;> omega

/-- Settles O31, from the laws of the decoded field and the tests of the listing. -/
theorem decodedFrameFields : Obligations.DecodedFrameFields := by
  intro m s t f ht hf
  have hres := referenceDecode_of_next_ok ht hf
  obtain rfl : t = finishCall (.ok f) s := by rw [eq_finishCall_of_next ht, hres]
  obtain ⟨r, hr, hend, rfl⟩ := exists_field_of_referenceDecode hres
  rw [State.octets_length] at hr hend ⊢
  have hlen := hr.length_le
  obtain ⟨hdest, hsrc, hrelay⟩ := hr.slots_of_buffer (by omega)
  have hview : (listingFrame s.octets (s.len - 2) r).payloadOff +
      (listingFrame s.octets (s.len - 2) r).payloadLen + 2 = s.len := by
    simp only [listingFrame_payloadOff, listingFrame_payloadLen]
    omega
  refine ⟨hdest, hsrc, hrelay, ?_, hlen, ?_, kindOf_classify_code _, ?_, fun p hp => ?_, ?_, hview,
    finishCall_payload (by omega), fun k hk => ?_⟩
  · simp only [Frame.nrelays, BitVec.toNat_ofNat, listingFrame_relays]
    omega
  · rw [listingFrame_relays, ← hr.consumed, memRead_eq_getD (by omega)]
    rfl
  · rw [listingFrame_pidPresent]
    exact listingPidPresent_iff _ _
  · obtain ⟨hpid, hget⟩ := getD_of_listingFrame_protocolId hp
    rw [if_pos hpid] at hend
    rw [listingFrame_relays, ← hr.consumed, memRead_eq_getD (by omega), hget]
  · rw [listingFrame_payloadOff, listingFrame_pidPresent, listingFrame_relays, hr.consumed]
  · rw [finishCall_relay]
    exact relayFile_getElem? _ hk

/-- Settles O44, stage by stage. -/
theorem stagesRaiseOrGoToTheNext : Obligations.StagesRaiseOrGoToTheNext := by
  intro m s w hn
  refine ⟨?_, ?_, stageAddr_cases hn, ?_, ?_, rfl⟩
  · have hmin := minLen_ge_two m
    rw [stageLen_eq]
    split
    · exact .inl rfl
    · exact .inr ⟨_, rfl, rfl, Nat.sub_add_cancel (by omega)⟩
  · rw [stageFcs_eq, Work.fcsVerify_eq]
    split
    · exact .inr ⟨_, rfl, rfl, rfl⟩
    · exact .inl rfl
  · rw [stageCtl_eq s w hn]
    split
    · exact .inl rfl
    · exact .inr ⟨_, rfl, rfl, rfl, memRead_of_lt s (by omega)⟩
  · rw [stagePid_eq s w hn]
    split
    · split
      · exact .inl rfl
      · exact .inr ⟨_, rfl, rfl, rfl⟩
    · exact .inr ⟨_, rfl, rfl, rfl⟩

end Sys2Proof.Machine
end

section
/-! PROOF. The buffer under the host's writes and under CORE's steps, and the statements of the memory family. -/

namespace Sys2Proof.Machine

/-- The octets after one is written: the new one at its offset, the others as before (R63). -/
theorem State.octets_setOctet {s : State} (hwf : Memory.wf s.buf = true) (addr : Nat) (v : Octet) :
    (s.setOctet addr v).octets = s.octets.set addr v := by
  apply List.ext_getElem?
  intro k
  by_cases hk : k < s.len
  · rw [State.octets_getElem? (s.setOctet addr v) hk, State.setOctet_buf, Memory.byteAt_write hwf, List.getElem?_set,
      State.octets_length, State.octets_getElem? s hk]
    by_cases hka : k = addr
    · simp [hka, hka ▸ hk]
    · simp [hka, Ne.symm hka]
  · rw [List.getElem?_eq_none (by simpa using hk), List.getElem?_eq_none (by simpa using hk)]

/-- A write at the `k`-th octet of a payload view inside the buffer writes the `k`-th octet of the payload (R65, R196). -/
theorem State.payload_setOctet {s : State} {f : Frame} (hwf : Memory.wf s.buf = true) (hf : s.frame = some f)
    (hin : f.payloadOff + f.payloadLen ≤ s.len) (k : Nat) (v : Octet) :
    (s.setOctet (f.payloadOff + k) v).payload =
      some (.ok (((s.octets.drop f.payloadOff).take f.payloadLen).set k v)) := by
  have hframe : (s.setOctet (f.payloadOff + k) v).frame = some f := hf
  rw [State.payload_of_inside hframe hin, State.octets_setOctet hwf, List.drop_set,
    if_neg (Nat.not_lt.mpr (Nat.le_add_right _ _)), Nat.add_sub_cancel_left, List.take_set]

/-- Every instruction answers a next state, with the buffer as it was (R30, R56). -/
theorem exec_next_sameBuffer (i : Instr) (s : State) : ∃ t, exec i s = .next t ∧ SameBuffer s t := by
  by_cases hi : i = .frameDecode
  · subst hi
    exact ⟨_, exec_frameDecode_eq s, sameBuffer_finishCall _ s⟩
  · obtain ⟨w, v, heq, -⟩ := exec_component_eq hi s
    exact ⟨_, heq, rfl, fun _ => rfl⟩

/-- A step answers a next state, or refuses a standing presentation whose octets do not decode (log 18). -/
theorem step_next_or_refused (s : State) : (∃ t, step s = .next t) ∨
    ∃ r, s.start = true ∧ decode s.sel s.octets = .error r ∧ step s = .refused (.badRequest r) := by
  cases hs : s.start with
  | false => exact .inl ⟨s, step_of_no_start hs⟩
  | true =>
    cases hd : decode s.sel s.octets with
    | ok i =>
      obtain ⟨t, ht, -⟩ := exec_next_sameBuffer i s.clearStart
      exact .inl ⟨t, (step_of_decode_ok hs hd).trans ht⟩
    | error r => exact .inr ⟨r, rfl, rfl, step_of_decode_error hs hd⟩

/-- Settles O37: the standing view lies inside the buffer, and a write there is a write of the payload. -/
theorem payloadViewFollowsTheBuffer : Obligations.PayloadViewFollowsTheBuffer := by
  intro s t f k v hwf hstart ht hf hk
  obtain ⟨-, -, -, -, -, -, -, -, -, -, hview, hpayload, -⟩ := decodedFrameFields Config.floor s t f ht hf
  obtain rfl : t = finishCall (referenceDecode Config.floor s.octets) s := eq_finishCall_of_next ht
  generalize referenceDecode Config.floor s.octets = r at hf hpayload ⊢
  have hframe : (finishCall r s).frame = some f := by rw [State.frame, hf]; rfl
  have hwrite : (finishCall r s).hostWrite (f.payloadOff + k) v =
      some ((finishCall r s).setOctet (f.payloadOff + k) v) :=
    State.hostWrite_eq_some_iff.mpr ⟨by simpa using hstart, by rw [finishCall_len]; omega, rfl⟩
  refine ⟨_, _, hwrite, rfl, hpayload, ?_, ?_⟩
  · rw [List.length_take, List.length_drop, State.octets_length]
    omega
  · rw [State.payload_setOctet (by simpa using hwf) hframe (by rw [finishCall_len]; omega),
      (sameBuffer_finishCall r s).octets_eq]

/-- Settles O38. -/
theorem noInstructionWritesTheBuffer : Obligations.NoInstructionWritesTheBuffer := by
  intro i s t ht
  obtain ⟨u, hu, hsame⟩ := exec_next_sameBuffer i s
  obtain rfl : u = t := Host.Outcome.next.inj (hu.symm.trans ht)
  exact hsame

/-- Settles O40: only octets of a component operation can be refused, and every buffer decodes to FRAME.DECODE. -/
theorem stepsNeverFault : Obligations.StepsNeverFault := by
  intro s
  rcases step_next_or_refused s with ⟨t, ht⟩ | ⟨r, hstart, hdecode, hrefused⟩
  · exact ⟨fun r => by simp [ht], fun _ => ⟨t, ht⟩⟩
  · refine ⟨fun _ => by simp [hrefused], ?_⟩
    rintro (hsel | hno)
    · rw [hsel] at hdecode
      cases hdecode
    · simp [hstart] at hno

end Sys2Proof.Machine
end

section
/-! PROOF. The decoder against the encoder, and the reading of bare octets: the statements about encodings. -/

namespace Sys2Proof

open Sys2Proof.Machine (Op)

/-- Settles O1, by the rows: a control-octet row tests its octet, and well-formedness is that test; CTL.UI compares with its one octet; the other rows only count octets. -/
theorem decodeEncodeRoundTrip : Obligations.DecodeEncodeRoundTrip := by
  intro i hwf
  cases i with
  | kindI c | kindS c | kindU c => exact takeControl_eq_ok_iff.mpr ⟨c, rfl, hwf, rfl⟩
  | ctlUi => exact takeFixed_eq_ok_iff.mpr ⟨rfl, rfl⟩
  | crcByte _ | ctlClassify _ | ctlPidsel _ | callsignOctet _ | ssidOctet _ => rfl
  | addrSlot _ | fcsField _ _ => rfl
  | fcsCompute _ | fcsVerify _ | addrField _ => rfl
  | crcInit | crcFinal | frameDecode => rfl

/-- Settles O2, by the rows: each decoding helper answers only the instruction of the octets it was handed. -/
theorem decodedOctetsEncodeBack : Obligations.DecodedOctetsEncodeBack := by
  intro op bs i h
  cases op with
  | kindI | kindS | kindU =>
    obtain ⟨c, rfl, hwf, rfl⟩ := takeControl_eq_ok_iff.mp h
    exact ⟨rfl, hwf, fun _ => rfl⟩
  | ctlUi =>
    obtain ⟨rfl, rfl⟩ := takeFixed_eq_ok_iff.mp h
    exact ⟨rfl, rfl, fun _ => rfl⟩
  | crcByte | ctlClassify | ctlPidsel | callsignOctet | ssidOctet =>
    obtain ⟨o, rfl, rfl⟩ := takeOne_eq_ok_iff.mp h
    exact ⟨rfl, rfl, fun _ => rfl⟩
  | addrSlot =>
    obtain ⟨slot, rfl, rfl⟩ := takeSlot_eq_ok_iff.mp h
    exact ⟨rfl, rfl, fun _ => rfl⟩
  | fcsField =>
    obtain ⟨l, h, rfl, rfl⟩ := takeTwo_eq_ok_iff.mp h
    exact ⟨rfl, rfl, fun _ => rfl⟩
  | crcInit | crcFinal =>
    obtain ⟨rfl, rfl⟩ := takeNone_eq_ok_iff.mp h
    exact ⟨rfl, rfl, fun _ => rfl⟩
  | fcsCompute | fcsVerify | addrField =>
    obtain rfl := Except.ok.inj h
    exact ⟨rfl, rfl, fun _ => rfl⟩
  | frameDecode =>
    obtain rfl := Except.ok.inj h
    exact ⟨rfl, rfl, fun hne => absurd rfl hne⟩

theorem wellFormed_of_decode {op : Op} {bs : List Octet} {i : Instr} (h : decode op bs = .ok i) :
    i.wellFormed = true := by
  obtain ⟨-, hwf, -⟩ := decodedOctetsEncodeBack op bs i h
  exact hwf

/-- Any seven octets are a slot (R120). -/
theorem exists_decode_addrSlot {bs : List Octet} (h : bs.length = 7) :
    ∃ slot, decode .addrSlot bs = .ok (.addrSlot slot) := by
  match bs, h with
  | [o0, o1, o2, o3, o4, o5, o6], _ => exact ⟨⟨o0, o1, o2, o3, o4, o5, o6⟩, rfl⟩

/-- The octets of a well-formed instruction, read without a selection, are that instruction when its row is the one they are read as (log 4); the row of CRC.INIT drops its octets, and it has none. -/
theorem decodeOctets_encode {i : Instr} (hwf : i.wellFormed = true) (hop : opOfOctets (encode i) = i.op) :
    decodeOctets (encode i) = .ok i := by
  have hoperands : operandsOfOctets (encode i) = encode i := by
    rw [operandsOfOctets, hop]
    cases i <;> rfl
  rw [decodeOctets, hoperands, hop]
  exact decodeEncodeRoundTrip i hwf

/-- One bare octet reads as the control-octet row it fits, 0x03 as CTL.UI (R76, log 4). -/
theorem decodeOctets_octet (c : Octet) : ∃ i, decodeOctets [c] = .ok i ∧ encode i = [c] ∧
    (i = .kindI c ∨ i = .kindS c ∨ i = .kindU c ∨ i = .ctlUi) := by
  obtain ⟨heven, hone, hthree⟩ := fitsPattern_control c
  by_cases hui : c = Config.uiControl
  · subst hui
    exact ⟨.ctlUi, rfl, rfl, by simp⟩
  by_cases hI : fitsPattern 0x01#8 0x00#8 c = true
  · have hop : opOfOctets [c] = .kindI := by simp [opOfOctets, hui, hI]
    exact ⟨.kindI c, decodeOctets_encode (i := .kindI c) hI hop, rfl, by simp⟩
  by_cases hS : fitsPattern 0x03#8 0x01#8 c = true
  · have hop : opOfOctets [c] = .kindS := by simp [opOfOctets, hui, hI, hS]
    exact ⟨.kindS c, decodeOctets_encode (i := .kindS c) hS hop, rfl, by simp⟩
  · have hU : fitsPattern 0x03#8 0x03#8 c = true := by
      rw [heven] at hI
      rw [hone] at hS
      rw [hthree]
      omega
    have hop : opOfOctets [c] = .kindU := by simp [opOfOctets, hui, hI, hS]
    exact ⟨.kindU c, decodeOctets_encode (i := .kindU c) hU hop, rfl, by simp⟩

/-- Bare octets always read as an instruction (R82, log 4). -/
theorem exists_decodeOctets (bs : List Octet) : ∃ i, decodeOctets bs = .ok i := by
  match bs with
  | [c] =>
    obtain ⟨i, hi, -⟩ := decodeOctets_octet c
    exact ⟨i, hi⟩
  | [l, h] =>
    by_cases hff : l = 0xFF#8 ∧ h = 0xFF#8
    · obtain ⟨rfl, rfl⟩ := hff
      exact ⟨.crcInit, rfl⟩
    · exact ⟨.fcsField l h, decodeOctets_encode (i := .fcsField l h) rfl (if_neg hff)⟩
  | [o0, o1, o2, o3, o4, o5, o6] => exact ⟨.addrSlot ⟨o0, o1, o2, o3, o4, o5, o6⟩, rfl⟩
  | [] | [_, _, _] | [_, _, _, _] | [_, _, _, _, _] | [_, _, _, _, _, _] | _ :: _ :: _ :: _ :: _ :: _ :: _ :: _ :: _ =>
    exact ⟨.frameDecode, rfl⟩

/-- Settles O3: what bare octets read as is well formed because it decodes (O2). -/
theorem noOctetsAreIllegal : Obligations.NoOctetsAreIllegal := by
  refine ⟨fun _ => rfl, fun _ => exists_decode_addrSlot, fun _ _ => rfl, fun c => ?_, fun bs => ?_⟩
  · obtain ⟨i, hi, henc, hrow⟩ := decodeOctets_octet c
    exact ⟨i, hi, wellFormed_of_decode hi, henc, hrow⟩
  · obtain ⟨i, hi⟩ := exists_decodeOctets bs
    exact ⟨i, hi, wellFormed_of_decode hi⟩

/-- A control-octet row decodes an octet exactly when the instruction is well formed. -/
theorem takeControl_octet_eq_ok_iff {op : Op} {mk : Octet → Instr} {c : Octet} :
    takeControl op mk [c] = .ok (mk c) ↔ (mk c).wellFormed = true := by
  simp [takeControl_eq_ok_iff]

/-- Settles O4. -/
theorem controlOctetRowsByLowBits : Obligations.ControlOctetRowsByLowBits := by
  intro c
  obtain ⟨heven, hone, hthree⟩ := fitsPattern_control c
  refine ⟨takeControl_octet_eq_ok_iff.trans heven, takeControl_octet_eq_ok_iff.trans hone,
    takeControl_octet_eq_ok_iff.trans hthree, takeFixed_eq_ok_iff.trans ?_⟩
  simp [BitVec.toNat_eq]

/-- Settles O5: the decoder run on each of the seven words. -/
theorem tableWordsDecode : Obligations.TableWordsDecode :=
  ⟨rfl, rfl, rfl, rfl, rfl, rfl, rfl⟩

end Sys2Proof
end

section
/-! PROOF. What the bit patterns give: the fields of an address slot and of the octet rows, and the flags of the control-octet rows. -/

namespace Sys2Proof.Machine

/-- Bit 0 of a callsign octet has no effect on its character (R83, R121). -/
theorem callsignChar_congr {o o' : Octet} (h : o.toNat / 2 = o'.toNat / 2) : callsignChar o = callsignChar o' :=
  BitVec.eq_of_toNat_eq (by rw [callsignChar_toNat, callsignChar_toNat, h])

/-- Bits 7 to 5 of an SSID octet have no effect on its suffix (R83, R123). -/
theorem ssidSuffix_congr {o o' : Octet} (h : o.toNat % 32 = o'.toNat % 32) : ssidSuffix o = ssidSuffix o' :=
  BitVec.eq_of_toNat_eq (by rw [ssidSuffix_toNat, ssidSuffix_toNat]; omega)

/-- Bits 7 to 5 of an SSID octet have no effect on its flag `last` (R83, R123). -/
theorem ssidLast_congr {o o' : Octet} (h : o.toNat % 32 = o'.toNat % 32) : ssidLast o = ssidLast o' :=
  Bool.eq_iff_iff.mpr (by rw [ssidLast_iff, ssidLast_iff]; omega)

/-- Settles O16: a record is made of the characters, the suffix and `last` alone. -/
theorem ignoredBitsChangeNoRecord : Obligations.IgnoredBitsChangeNoRecord := by
  intro p q h0 h1 h2 h3 h4 h5 hssid
  have hchars : slotChars p = slotChars q := by
    simp only [slotChars, callsignChar_congr h0, callsignChar_congr h1, callsignChar_congr h2,
      callsignChar_congr h3, callsignChar_congr h4, callsignChar_congr h5]
  rw [decodeSlot, decodeSlot, hchars, ssidSuffix_congr hssid, ssidLast_congr hssid]

/-- Settles O24. -/
theorem octetRowsGiveTheirFields : Obligations.OctetRowsGiveTheirFields := fun o h s =>
  ⟨⟨_, _, rfl, rfl, callsignChar_toNat o, rfl, .setRet s s.work _⟩,
    ⟨_, _, _, rfl, rfl, ssidSuffix_toNat o, ssidLast_iff o, rfl, .setRet s s.work _⟩,
    ⟨_, _, rfl, rfl, fcsWord_toNat o h, rfl, .setRet s s.work _⟩⟩

/-- The three flags as tests of the two low bits (R140). -/
theorem classify_eq (c : Octet) :
    classify c = ⟨decide (c.toNat % 2 = 0), decide (c.toNat % 4 = 1), decide (c.toNat % 4 = 3)⟩ := by
  obtain ⟨hI, hS, hU⟩ := classify_iff c
  simp only [← hI, ← hS, ← hU, Bool.decide_eq_true]

theorem classify_of_even {c : Octet} (h : c.toNat % 2 = 0) : classify c = ⟨true, false, false⟩ := by
  rw [classify_eq, decide_eq_true h, decide_eq_false (by omega), decide_eq_false (by omega)]

theorem classify_of_mod_four_eq_one {c : Octet} (h : c.toNat % 4 = 1) : classify c = ⟨false, true, false⟩ := by
  rw [classify_eq, decide_eq_false (by omega), decide_eq_true h, decide_eq_false (by omega)]

theorem classify_of_mod_four_eq_three {c : Octet} (h : c.toNat % 4 = 3) : classify c = ⟨false, false, true⟩ := by
  rw [classify_eq, decide_eq_false (by omega), decide_eq_false (by omega), decide_eq_true h]

/-- What a control-octet row leaves, given the flags and the selection of its octet. -/
theorem controlRow_spec {c : Octet} {k : KindFlags} {p : Bool} (s : State) (hk : classify c = k)
    (hp : p = true ↔ c.toNat % 2 = 0 ∨ c.toNat = 3) :
    ∃ t, controlRow c s = .next t ∧ SameWrapper s t ∧ t.ret = some (.kind k) ∧
      t.work = { s.work with control := c, flags := k, pidPresent := p } := by
  obtain rfl : pidSelect c (classify c) = p := Bool.eq_iff_iff.mpr ((pidSelect_classify_iff c).trans hp.symm)
  subst hk
  exact ⟨_, controlRow_eq c s, .setRet s _ _, rfl, rfl⟩

/-- Settles O23: the octet's row fixes its two low bits, and these the flags and the selection. -/
theorem controlRowsClassify : Obligations.ControlRowsClassify := by
  intro c s
  obtain ⟨heven, hone, hthree⟩ := fitsPattern_control c
  refine ⟨fun h => ?_, fun h => ?_, fun h => ?_, controlRow_spec s rfl (by decide)⟩
  · have hc := heven.mp h
    exact controlRow_spec s (classify_of_even hc) (iff_of_true rfl (.inl hc))
  · have hc := hone.mp h
    exact controlRow_spec s (classify_of_mod_four_eq_one hc) (iff_of_false Bool.false_ne_true (by omega))
  · have hc := hthree.mp h
    exact controlRow_spec s (classify_of_mod_four_eq_three hc) (by rw [decide_eq_true_iff]; omega)

end Sys2Proof.Machine
end

section
/-! PROOF. What the checksum operations compute and write: the register as a number, the residue form, and the statements of the checksum family. -/

namespace Sys2Proof.Machine

/-- One iteration of R101 on numbers. -/
def crcIterNat (c : Nat) : Nat :=
  if c % 2 = 1 then (c / 2) ^^^ 0x8408 else c / 2

theorem crcIters_eq_iterate : ∀ k, crcIters k = crcIter^[k]
  | 0 => rfl
  | k + 1 => funext fun c => congrFun (crcIters_eq_iterate k) (crcIter c)

/-- Iterations of the register are iterations of its number (R101). -/
theorem crcIters_toNat (k : Nat) (c : Word16) : (crcIters k c).toNat = crcIterNat^[k] c.toNat := by
  have hstep : Function.Semiconj BitVec.toNat crcIter crcIterNat := crcIter_toNat
  rw [crcIters_eq_iterate]
  exact hstep.iterate_right k c

/-- CRC.BYTE on numbers (R101). -/
theorem crcByte_toNat (c : Word16) (b : Octet) : (crcByte c b).toNat = crcIterNat^[8] (c.toNat ^^^ b.toNat) := by
  have hb : (b.zeroExtend 16).toNat = b.toNat := BitVec.toNat_setWidth_of_le (by decide)
  rw [crcByte, crcIters_toNat, BitVec.toNat_xor, hb]

theorem crcByte_bijective (b : Octet) : Function.Bijective fun c => crcByte c b :=
  Finite.injective_iff_bijective.mp (crcByte_injective b)

/-- CRC.FINAL complements the register (R102). -/
theorem crcFinal_eq_not (c : Word16) : crcFinal c = ~~~c :=
  BitVec.xor_allOnes

/-- CRC.BYTE of each octet in order, as instructions, runs the register over the octets and changes nothing else (R103). -/
theorem execAll_map_crcByte (is : List Instr) : ∀ (data : List Octet) (s : State),
    execAll (data.map .crcByte ++ is) s = execAll is (s.setWork { s.work with crc := crcBytes s.work.crc data })
  | [], _ => rfl
  | b :: data, s => execAll_map_crcByte is data (s.setWork { s.work with crc := crcByte s.work.crc b })

/-- A body below 3 octets is not computed over (R104, log 23). -/
theorem Work.fcsVerify_crc_of_short (w : Work) {body : List Octet} (h : body.length < 3) :
    (w.fcsVerify body).crc = w.crc := by
  rw [Work.fcsVerify, if_pos h]

/-- The received FCS is the XOR of its two octets, each in its own half. -/
theorem fcsWord_eq_xor (l h : Octet) : fcsWord l h = l.zeroExtend 16 ^^^ (h.zeroExtend 16 <<< 8) := by
  ext k hk
  simp only [fcsWord, BitVec.truncate_eq_setWidth, BitVec.getElem_or, BitVec.getElem_xor, BitVec.getElem_shiftLeft]
  by_cases hlow : k < 8
  · simp [hlow]
  · have hl : l.getLsbD k = false := BitVec.getLsbD_of_ge l k (by omega)
    simp [hl]

/-- CRC.BYTE of the two octets of an FCS field depends only on the register XOR the field (R107). -/
theorem crcBytes_fcsField (c : Word16) (l h : Octet) :
    crcBytes c [l, h] = crcIters 8 (crcIters 8 (c ^^^ fcsWord l h)) := by
  calc crcBytes c [l, h]
      = crcIters 8 (crcIters 8 (c ^^^ l.zeroExtend 16) ^^^ crcIters 8 (h.zeroExtend 16 <<< 8)) := by
        rw [crcIters_high]; rfl
    _ = crcIters 8 (crcIters 8 (c ^^^ fcsWord l h)) := by
        rw [← crcIters_xor, BitVec.xor_assoc, ← fcsWord_eq_xor]

/-- Two octets leave the residue exactly when they are the FCS field that the register finally gives (R107). -/
theorem crcBytes_fcsField_eq_residue_iff (c : Word16) (l h : Octet) :
    crcBytes c [l, h] = 0xF0B8#16 ↔ crcFinal c = fcsWord l h := by
  have hres : crcIters 8 (crcIters 8 0xFFFF#16) = 0xF0B8#16 := by decide +kernel
  rw [crcBytes_fcsField, ← hres, (crcIters_injective 8).eq_iff, (crcIters_injective 8).eq_iff]
  exact (xor_eq_iff_right_eq c (fcsWord l h) 0xFFFF#16).trans eq_comm

/-- A body is its covered octets and its FCS field (R104). -/
theorem fcsCovered_append {body : List Octet} (h : 2 ≤ body.length) :
    fcsCovered body ++ [body.getD (body.length - 2) 0#8, body.getD (body.length - 1) 0#8] = body := by
  have h1 : body.length - 2 < body.length := by omega
  have h2 : body.length - 2 + 1 < body.length := by omega
  conv_rhs => rw [← List.take_append_drop (body.length - 2) body, List.drop_eq_getElem_cons h1,
    List.drop_eq_getElem_cons h2, List.drop_of_length_le (by omega)]
  rw [List.getD_eq_getElem _ _ h1, show body.length - 1 = body.length - 2 + 1 by omega, List.getD_eq_getElem _ _ h2]
  rfl

/-- The residue form (R107). -/
theorem fcsVerify_iff_residue {body : List Octet} (h : 3 ≤ body.length) :
    fcsVerify body = true ↔ crcBytes Config.crcInit body = 0xF0B8#16 := by
  rw [fcsVerify_iff, and_iff_right h, fcsCompute, ← crcBytes_fcsField_eq_residue_iff, ← crcBytes_append,
    fcsCovered_append (by omega)]

/-- An octet that is replaced without a change of the last register is replaced by itself: every CRC.BYTE is injective (R109). -/
theorem eq_getElem_of_crcBytes_set {c : Word16} {data : List Octet} {i : Nat} {v : Octet} (hi : i < data.length)
    (h : crcBytes c (data.set i v) = crcBytes c data) : v = data[i] := by
  rw [List.set_eq_take_append_cons_drop, if_pos hi] at h
  conv_rhs at h => rw [← List.take_append_drop i data, List.drop_eq_getElem_cons hi]
  rw [crcBytes_append, crcBytes_append, crcBytes_cons, crcBytes_cons] at h
  exact crcByte_injective_octet _ (crcBytes_injective _ h)

/-- A body whose FCS is right does not verify with one octet replaced by another (R109). -/
theorem fcsVerify_set_eq_false {body : List Octet} {i : Nat} {v : Octet} (hlen : 3 ≤ body.length)
    (hok : fcsVerify body = true) (hi : i < body.length) (hv : v ≠ body[i]) : fcsVerify (body.set i v) = false := by
  refine Bool.eq_false_iff.mpr fun hset => hv (eq_getElem_of_crcBytes_set (c := Config.crcInit) hi ?_)
  rw [(fcsVerify_iff_residue (by simpa using hlen)).mp hset, (fcsVerify_iff_residue hlen).mp hok]

/-- Flipping one bit changes an octet. -/
theorem xor_bit_ne_self (o : Octet) {bit : Nat} (h : bit < 8) : o ^^^ (1#8 <<< bit) ≠ o := by
  intro heq
  have := congrArg (BitVec.getLsbD · bit) heq
  simp [h] at this

/-- The result of a decode whose buffer reaches the floor and does not verify (R172). -/
theorem referenceDecode_of_fcsVerify_eq_false {m : Config.Floor} {buf : List Octet} (hlen : m.minLen ≤ buf.length)
    (h : fcsVerify buf = false) : referenceDecode m buf = .err .checksumMismatch := by
  rw [referenceDecode_eq, if_neg (Nat.not_lt.mpr hlen), if_pos h]

/-- Settles O14: the host's write replaces one octet by another, and the body no longer verifies. -/
theorem flippedBitGivesChecksumMismatch : Obligations.FlippedBitGivesChecksumMismatch := by
  intro m s addr bit hstart hwf hfloor hok haddr hbit
  have hin : addr < s.len := by omega
  have hoctets : addr < s.octets.length := by simpa using hin
  have hbyte : Memory.byteAt s.buf addr = s.octets[addr] :=
    ((List.getElem_eq_iff hoctets).mpr (s.octets_getElem? hin)).symm
  have hbad : fcsVerify (s.setOctet addr (Memory.byteAt s.buf addr ^^^ (1#8 <<< bit))).octets = false := by
    rw [State.octets_setOctet hwf, hbyte]
    exact fcsVerify_set_eq_false (by rw [State.octets_length]; omega) hok hoctets (xor_bit_ne_self _ hbit)
  refine ⟨_, _, State.hostWrite_eq_some_iff.mpr ⟨hstart, hin, rfl⟩, frameDecodeAt_eq m _, ?_⟩
  rw [finishCall_result, referenceDecode_of_fcsVerify_eq_false (by simpa using hfloor) hbad]

/-- Settles O9. -/
theorem crcByteRunsEightIterations : Obligations.CrcByteRunsEightIterations := fun b =>
  ⟨fun s => ⟨_, rfl, crcByte_toNat s.work.crc b, rfl, rfl, .setWork s _⟩, crcByte_bijective b⟩

/-- Settles O11: the instructions run the register over the octets, and CRC.FINAL returns its complement. -/
theorem fcsComputeIsInitBytesFinal : Obligations.FcsComputeIsInitBytesFinal := by
  intro data s
  refine ⟨_, fcsCompute data, rfl, ?_, rfl, ?_, rfl, .setRet s _ _⟩
  · exact execAll_map_crcByte [.crcFinal] data (s.setWork { s.work with crc := Config.crcInit })
  · rintro rfl
    rfl

/-- Settles O12: the two words compared are equal exactly when their numbers are. -/
theorem fcsVerifyComparesLowOctetFirst : Obligations.FcsVerifyComparesLowOctetFirst := by
  intro body s
  refine ⟨_, fcsVerify body, rfl, rfl, Work.fcsVerify_fcsOk s.work body, ?_, Work.fcsVerify_eq s.work body,
    s.work.fcsVerify_crc_of_short, .setRet s _ _⟩
  rw [fcsVerify_iff, ← BitVec.toNat_inj, fcsWord_toNat]
  rfl

/-- Settles O13. -/
theorem residueFormVerifies : Obligations.ResidueFormVerifies := fun _ => fcsVerify_iff_residue

/-- Settles O8. -/
theorem crcInitLoadsFFFF : Obligations.CrcInitLoadsFFFF := fun s => ⟨_, rfl, rfl, rfl, .setWork s _⟩

/-- Settles O10. -/
theorem crcFinalComplementsEveryBit : Obligations.CrcFinalComplementsEveryBit := fun s =>
  ⟨_, _, rfl, rfl, fun k hk => by rw [crcFinal_eq_not, BitVec.getLsbD_not, decide_eq_true hk, Bool.true_and], rfl,
    .setRet s _ _⟩

end Sys2Proof.Machine
end

section
/-! PROOF. What the address decoder gives: the record of a slot, when a field fails, and the records that determine a field that does not. -/

namespace Sys2Proof.Machine

/-- The characters of a slot are its callsign octets halved (R73, R121). -/
theorem slotChars_getElem?_toNat (slot : Slot) (k : Nat) : ((slotChars slot)[k]?).map BitVec.toNat =
    [slot.o0, slot.o1, slot.o2, slot.o3, slot.o4, slot.o5][k]?.map fun o => o.toNat / 2 := by
  have hlist : (slotChars slot).toList = [slot.o0, slot.o1, slot.o2, slot.o3, slot.o4, slot.o5].map callsignChar := rfl
  rw [← Vector.getElem?_toList, hlist, List.getElem?_map, Option.map_map]
  congr 1
  exact funext callsignChar_toNat

/-- The flag of a record read off a region is bit 0 of the slot's last octet (R75). -/
theorem last_iff_of_map_slot {reg : List Octet} {pos : Nat} {a : Address}
    (h : (slotAt reg pos).map decodeSlot = some a) : a.last = true ↔ (reg.getD (pos + 6) 0#8).toNat % 2 = 1 := by
  obtain ⟨slot, hslot, rfl⟩ := Option.map_eq_some_iff.mp h
  exact slotAt_last hslot

/-- The last octet of a slot whose record has `last = 0` is even (R75). -/
theorem octet_even_of_map_slot {reg : List Octet} {pos : Nat} {a : Address}
    (h : (slotAt reg pos).map decodeSlot = some a) (hl : a.last = false) : (reg.getD (pos + 6) 0#8).toNat % 2 = 0 := by
  have hodd := (last_iff_of_map_slot h).not.mp (by simp [hl])
  omega

/-- The source slot and every relay slot that fits, up to eight, has `last = 0` (R128). -/
def ChainOpen (reg : List Octet) : Prop :=
  (reg.getD 13 0#8).toNat % 2 = 0 ∧
    ∀ k, k < 8 → 21 + 7 * k ≤ reg.length → (reg.getD (20 + 7 * k) 0#8).toNat % 2 = 0

section
variable {reg : List Octet} {f g : FieldOk}

theorem FieldLaws.le_length (h : FieldLaws reg f) : 14 ≤ reg.length := by
  have hin := h.consumed_le
  rw [h.consumed] at hin
  omega

/-- The chain of a field that keeps its laws is closed, by the source or by the last relay. -/
theorem FieldLaws.not_chainOpen (h : FieldLaws reg f) : ¬ ChainOpen reg := by
  rintro ⟨hsrc, hrel⟩
  have hin := h.consumed_le
  have hlen := h.length_le
  rw [h.consumed] at hin
  match hn : f.relays.length with
  | 0 =>
    have hodd : (reg.getD 13 0#8).toNat % 2 = 1 :=
      (last_iff_of_map_slot h.source).mp (h.source_last.mpr (List.length_eq_zero_iff.mp hn))
    omega
  | k + 1 =>
    have hk : k < f.relays.length := by omega
    have hget : f.relays[k]? = some f.relays[k] := List.getElem?_eq_getElem hk
    have hodd := (last_iff_of_map_slot ((h.relay k hk).trans hget)).mp ((h.relay_last k _ hget).mpr hn.symm)
    have heven := hrel k (by omega) (by omega)
    rw [show 14 + 7 * k + 6 = 20 + 7 * k by omega] at hodd
    omega

/-- A field that fails on two whole slots read every relay slot that fits, up to eight, and none closed the chain (R127, R128). -/
theorem chainOpen_of_addrField_none (h14 : 14 ≤ reg.length) (h : addrField reg = none) : ChainOpen reg := by
  obtain ⟨f, hw, hfail, -, hlen⟩ := addrWalk_of_addrField_none h14 h
  obtain ⟨g, hg, -, hs, -, -, hget, -, -, hopen⟩ := addrWalk_spec h14
  obtain rfl : g = f := Option.some.inj (hg.symm.trans hw)
  obtain ⟨hsrc, hchain⟩ := Bool.or_eq_false_iff.mp hfail
  obtain ⟨hrel, -⟩ := (hopen hsrc).resolve_left (by simp [hchain])
  refine ⟨octet_even_of_map_slot hs hsrc, fun k hk hfit => ?_⟩
  have hin : k < g.relays.length := by omega
  rw [show 20 + 7 * k = 14 + 7 * k + 6 by omega]
  exact octet_even_of_map_slot ((hget k hin).trans (List.getElem?_eq_getElem hin)) (hrel _ (List.getElem_mem hin))

/-- ADDR.FIELD fails exactly below two whole slots or with its chain open (R125, R128). -/
theorem addrField_eq_none_iff (reg : List Octet) : addrField reg = none ↔ reg.length < 14 ∨ ChainOpen reg := by
  constructor
  · intro h
    exact (Nat.lt_or_ge reg.length 14).imp_right fun h14 => chainOpen_of_addrField_none h14 h
  · intro h
    by_contra hne
    obtain ⟨f, hf⟩ := Option.ne_none_iff_exists'.mp hne
    have hlaws := fieldLaws_of_addrField hf
    exact h.elim (Nat.not_lt.mpr hlaws.le_length) hlaws.not_chainOpen

/-- The slot that closes the chain of one field of a region closes that of every other. -/
theorem FieldLaws.relays_length_le (hf : FieldLaws reg f) (hg : FieldLaws reg g) :
    g.relays.length ≤ f.relays.length := by
  by_contra hlt
  match hn : f.relays.length with
  | 0 =>
    have hsrc : f.source = g.source := Option.some.inj (hf.source.symm.trans hg.source)
    have hnil := hg.source_last.mp (hsrc ▸ hf.source_last.mpr (List.length_eq_zero_iff.mp hn))
    simp [hnil] at hlt
  | k + 1 =>
    have hget : f.relays[k]? = some f.relays[k] := List.getElem?_eq_getElem (by omega)
    have hsame : g.relays[k]? = some f.relays[k] := by
      rw [← hg.relay k (by omega), hf.relay k (by omega), hget]
    have := (hg.relay_last k _ hsame).mp ((hf.relay_last k _ hget).mpr hn.symm)
    omega

/-- A region has at most one field. -/
theorem FieldLaws.unique (hf : FieldLaws reg f) (hg : FieldLaws reg g) : f = g := by
  have hdest : f.destination = g.destination := Option.some.inj (hf.destination.symm.trans hg.destination)
  have hsrc : f.source = g.source := Option.some.inj (hf.source.symm.trans hg.source)
  have hlen : f.relays.length = g.relays.length := Nat.le_antisymm (hg.relays_length_le hf) (hf.relays_length_le hg)
  have hrel : f.relays = g.relays := List.ext_getElem? fun k => by
    rcases Nat.lt_or_ge k f.relays.length with hk | hk
    · rw [← hf.relay k hk, hg.relay k (by omega)]
    · rw [List.getElem?_eq_none hk, List.getElem?_eq_none (by omega)]
  have hcons : f.consumed = g.consumed := by rw [hf.consumed, hg.consumed, hlen]
  cases f
  cases g
  exact FieldOk.mk.injEq .. ▸ ⟨hdest, hsrc, hrel, hcons⟩

/-- ADDR.FIELD returns the one field that keeps the laws of its region (R125 to R129). -/
theorem addrField_eq_some_iff_fieldLaws : addrField reg = some f ↔ FieldLaws reg f := by
  refine ⟨fieldLaws_of_addrField, fun h => ?_⟩
  cases hr : addrField reg with
  | none =>
    rcases (addrField_eq_none_iff reg).mp hr with hshort | hopen
    · exact absurd h.le_length (Nat.not_le.mpr hshort)
    · exact absurd hopen h.not_chainOpen
  | some g => rw [(fieldLaws_of_addrField hr).unique h]

/-- The laws of a field speak of the consumed octets and the region's length only (R131). -/
theorem FieldLaws.congr {reg' : List Octet} (h : FieldLaws reg f) (hl : reg'.length = reg.length)
    (ht : reg'.take f.consumed = reg.take f.consumed) : FieldLaws reg' f := by
  have hcons := h.consumed
  have hslot {pos : Nat} (hpos : pos + 7 ≤ f.consumed) : slotAt reg' pos = slotAt reg pos := slotAt_congr hl ht hpos
  exact { h with
    destination := by rw [hslot (by omega), h.destination]
    source := by rw [hslot (by omega), h.source]
    relay := fun k hk => by rw [hslot (by omega), h.relay k hk]
    consumed_le := hl ▸ h.consumed_le }

end

/-- Settles O15: the trim drops exactly the padding, and each field of the record is a number of its octet. -/
theorem addrSlotRecord : Obligations.AddrSlotRecord := by
  intro slot s
  obtain ⟨hle, hstop, hpad⟩ := addressInv_decodeSlot slot
  exact ⟨_, decodeSlot slot, rfl, rfl, fun k _ => slotChars_getElem?_toNat slot k, hle, hstop, hpad,
    ssidSuffix_toNat slot.ssid, ssidLast_iff slot.ssid, rfl, .setRet s s.work _⟩

/-- Settles O17: a field that fails read every relay slot that fits, and one that succeeds keeps laws under which the chain is closed. -/
theorem addrFieldFailsExactly : Obligations.AddrFieldFailsExactly := fun reg s =>
  ⟨_, addrField reg, rfl, rfl, rfl, addrField_eq_none_iff reg, .setRet s _ _⟩

/-- Settles O18: the statement is the laws of a decoded field, each in turn. -/
theorem addrFieldRecords : Obligations.AddrFieldRecords := by
  intro reg f h
  obtain ⟨hdest, hsrc, hrelay, hlen, hcons, hin, hsl, hrl⟩ := fieldLaws_of_addrField h
  exact ⟨hdest, hsrc, hrelay, hlen, hcons, hin, hsl, hrl⟩

/-- Settles O19: the laws of a field determine it, and they carry over to a region that agrees on the consumed octets. -/
theorem addrFieldReadsOnlyItsFootprint : Obligations.AddrFieldReadsOnlyItsFootprint := fun _ _ _ hf hl ht =>
  addrField_eq_some_iff_fieldLaws.mpr ((fieldLaws_of_addrField hf).congr hl ht)

end Sys2Proof.Machine
end

section
/-! PROOF. What the classifier's two operations answer: exactly one flag, the kind it gives, and the presence of a protocol identifier. -/

namespace Sys2Proof.Machine

/-- Exactly one of the three flags is true. -/
def KindFlags.ExactlyOne (k : KindFlags) : Prop :=
  k = ⟨true, false, false⟩ ∨ k = ⟨false, true, false⟩ ∨ k = ⟨false, false, true⟩

/-- The two low bits put every octet into exactly one category (R141). -/
theorem classify_exactlyOne (c : Octet) : (classify c).ExactlyOne := by
  have hbits : c.toNat % 2 = 0 ∨ c.toNat % 4 = 1 ∨ c.toNat % 4 = 3 := by omega
  exact hbits.imp classify_of_even (.imp classify_of_mod_four_eq_one classify_of_mod_four_eq_three)

/-- The kind follows the flag that is 1 (R140, R155). -/
theorem KindFlags.ExactlyOne.kindOf_iff {k : KindFlags} (h : k.ExactlyOne) :
    (kindOf k = .information ↔ k.isInformation = true) ∧ (kindOf k = .supervisory ↔ k.isSupervisory = true) ∧
      (kindOf k = .unnumbered ↔ k.isUnnumbered = true) := by
  obtain rfl | rfl | rfl := h <;> decide

/-- Settles O21: the low bits give each flag, and under exactly one flag the kind follows it. -/
theorem ctlClassifyFlags : Obligations.CtlClassifyFlags := by
  intro c s
  obtain ⟨hI, hS, hU⟩ := classify_iff c
  have hone := classify_exactlyOne c
  obtain ⟨hinf, hsup, hunn⟩ := hone.kindOf_iff
  exact ⟨_, classify c, rfl, rfl, hI, hS, hU, hone, hinf, hsup, hunn, rfl, .setRet s _ _⟩

/-- Settles O22. -/
theorem ctlPidselFlag : Obligations.CtlPidselFlag := fun c s =>
  ⟨_, pidSelect c (classify c), rfl, rfl, pidSelect_classify_iff c, rfl, .setRet s _ _⟩

end Sys2Proof.Machine
end

section
/-! PROOF. The frame assembler as a whole: how every call ends, the listing it meets, and what the two floors change. -/

namespace Sys2Proof.Machine

@[simp] theorem finishCall_stage (r : Result) (s : State) : (finishCall r s).work.stage = .sDone := by cases r <;> rfl
@[simp] theorem finishCall_draws (r : Result) (s : State) : (finishCall r s).draws = s.draws + 1 := by cases r <;> rfl

/-- The floors 17 and 16 admit the same buffers but those of 16 octets (R160). -/
theorem referenceDecode_repo16_eq {buf : List Octet} (h : buf.length ≠ 16) :
    referenceDecode .repo16 buf = referenceDecode .spec17 buf := by
  have hfloor : buf.length < 16 ↔ buf.length < 17 := by omega
  rw [referenceDecode_eq, referenceDecode_eq]
  exact if_congr hfloor rfl rfl

/-- In a region with two whole slots and no room for a relay the field fails exactly when the source has `last = 0` (R125, R128). -/
theorem addrField_eq_none_iff_source_even {reg : List Octet} (h14 : 14 ≤ reg.length) (h21 : reg.length < 21) :
    addrField reg = none ↔ (reg.getD 13 0#8).toNat % 2 = 0 := by
  rw [addrField_eq_none_iff]
  constructor
  · rintro (hshort | ⟨hsrc, -⟩)
    · omega
    · exact hsrc
  · exact fun hsrc => .inr ⟨hsrc, fun k _ hfit => by omega⟩

/-- A region of 14 octets holds no control octet: the listing ends at the address field, when the chain is open, or right after it (R160). -/
theorem listingFromAddr_fourteen {buf : List Octet} (h : 14 ≤ buf.length) : listingFromAddr buf 14 =
    .err (if (buf.getD 13 0#8).toNat % 2 = 0 then .malformedAddressField else .truncated) := by
  have hlen : (buf.take 14).length = 14 := by simpa using h
  have hget : (buf.take 14).getD 13 0#8 = buf.getD 13 0#8 := by simp [List.getD_eq_getElem?_getD]
  have hnone := addrField_eq_none_iff_source_even (reg := buf.take 14) (by omega) (by omega)
  rw [hget] at hnone
  unfold listingFromAddr
  cases hr : addrField (buf.take 14) with
  | none => rw [if_pos (hnone.mp hr)]
  | some r =>
    have hodd : ¬ (buf.getD 13 0#8).toNat % 2 = 0 := fun heven => by simp [hnone.mpr heven] at hr
    have hcons : 14 ≤ r.consumed := by
      rw [(fieldLaws_of_addrField hr).consumed]
      omega
    rw [if_neg hodd]
    exact (referenceTail_eq buf 14 r).trans (if_pos hcons)

/-- The floor 16 decodes a buffer of 16 octets to the error of the step that fails (R160). -/
theorem referenceDecode_repo16_sixteen {buf : List Octet} (h : buf.length = 16) : referenceDecode .repo16 buf =
    .err (if fcsVerify buf = false then .checksumMismatch
      else if (buf.getD 13 0#8).toNat % 2 = 0 then .malformedAddressField else .truncated) := by
  have hfloor : ¬ buf.length < Config.Floor.repo16.minLen := by simp [h, Config.Floor.minLen]
  rw [referenceDecode_eq, if_neg hfloor, h, listingFromAddr_fourteen (by omega)]
  split <;> rfl

/-- Settles O25: every call ends in the one way a decode ends, with the listing's result. -/
theorem frameDecodeAlwaysEnds : Obligations.FrameDecodeAlwaysEnds := fun s =>
  ⟨_, referenceDecode Config.floor s.octets, exec_frameDecode_eq s, finishCall_result _ s, finishCall_phase _ s,
    finishCall_stage _ s, finishCall_ret _ s, finishCall_start _ s, finishCall_sel _ s, finishCall_draws _ s,
    sameBuffer_finishCall _ s⟩

/-- Settles O26: the stages, run on the registers and reading octet by octet, end the call with the listing's result. -/
theorem frameDecodeMeetsTheListing : Obligations.FrameDecodeMeetsTheListing := fun m s =>
  ⟨_, frameDecodeAt_eq m s, finishCall_result _ s, rfl⟩

/-- Settles O34: the listing's first test alone reads the floor, and a region of 14 octets holds no control octet. -/
theorem floorsDifferOnlyAtSixteen : Obligations.FloorsDifferOnlyAtSixteen := by
  intro s
  refine ⟨_, _, frameDecodeAt_eq .spec17 s, frameDecodeAt_eq .repo16 s, fun hne => ?_, fun h16 => ⟨?_, ?_⟩⟩
  · rw [finishCall_result, finishCall_result, referenceDecode_repo16_eq (by simpa using hne)]
  · have hshort : s.octets.length < Config.Floor.spec17.minLen := by simp [h16, Config.Floor.minLen]
    rw [finishCall_result, referenceDecode_eq, if_pos hshort]
  · rw [finishCall_result, referenceDecode_repo16_sixteen (by simpa using h16), s.octets_getD (by omega)]
    rfl

end Sys2Proof.Machine
end

section
/-! PROOF. When a decode ends with each of its four errors, what a component may not write, and that no call leaves anything the next one sees. -/

namespace Sys2Proof.Machine

/-- What a decode reports is what the listing gives for the octets of the buffer. -/
theorem exists_result_iff_of_referenceDecode {m : Config.Floor} {s : State} {r : Result} {P : Prop}
    (h : referenceDecode m s.octets = r ↔ P) : ∃ t, frameDecodeAt m s = .next t ∧ (t.result = some r ↔ P) :=
  ⟨_, frameDecodeAt_eq m s, by rwa [finishCall_result, Option.some.injEq]⟩

/-- The only error of the listing after the address field is Truncated, when the region ends before the control octet or before a protocol identifier it calls for (R174). -/
theorem referenceTail_eq_err_iff {buf : List Octet} {n : Nat} {r : FieldOk} {e : DecodeError} :
    referenceTail buf n r = .err e ↔
      .truncated = e ∧ (n ≤ r.consumed ∨ n = r.consumed + 1 ∧ listingPidPresent buf r = true) := by
  rw [referenceTail_eq]
  by_cases hctl : n ≤ r.consumed
  · simp [hctl]
  · cases hp : listingPidPresent buf r
    · simp [hctl]
    · have hend : n ≤ r.consumed + 1 ↔ n = r.consumed + 1 := by omega
      by_cases hpid : n = r.consumed + 1 <;> simp [hctl, hend, hpid]

/-- The errors of the listing after its checksum test (R173, R174). -/
theorem listingFromAddr_eq_err_iff {buf : List Octet} {n : Nat} {e : DecodeError} :
    listingFromAddr buf n = .err e ↔ (addrField (buf.take n) = none ∧ .malformedAddressField = e) ∨
      ∃ r, addrField (buf.take n) = some r ∧ referenceTail buf n r = .err e := by
  unfold listingFromAddr
  cases addrField (buf.take n) with
  | none => simp
  | some r => simp

/-- The errors of the listing, by the first test that fails (R161). -/
theorem referenceDecode_eq_err_iff {m : Config.Floor} {buf : List Octet} {e : DecodeError} :
    referenceDecode m buf = .err e ↔ (buf.length < m.minLen ∧ .tooShort = e) ∨
      (m.minLen ≤ buf.length ∧ fcsVerify buf = false ∧ .checksumMismatch = e) ∨
      (m.minLen ≤ buf.length ∧ fcsVerify buf = true ∧ listingFromAddr buf (buf.length - 2) = .err e) := by
  rw [referenceDecode_eq]
  rcases Nat.lt_or_ge buf.length m.minLen with hlen | hlen
  · simp [hlen, Nat.not_le.mpr hlen]
  · cases hfcs : fcsVerify buf <;> simp [hlen, Nat.not_lt.mpr hlen]

/-- Both floors leave room for the two mandatory slots and the FCS (R10, R163). -/
theorem minLen_ge_sixteen (m : Config.Floor) : 16 ≤ m.minLen := by
  cases m <;> decide

/-- An octet of the list presented is that of the buffer at its offset, as numbers. -/
theorem State.octets_getD_toNat (s : State) {a : Nat} (h : a < s.len) :
    (s.octets.getD a 0#8).toNat = s.octetAt a :=
  congrArg BitVec.toNat (s.octets_getD h)

/-- The checksum test over a whole buffer, as numbers (R104, R172). -/
theorem State.fcsVerify_octets_iff (s : State) (h : 3 ≤ s.len) : fcsVerify s.octets = true ↔
    (fcsCompute (s.octets.take (s.len - 2))).toNat = s.octetAt (s.len - 2) + 256 * s.octetAt (s.len - 1) := by
  rw [fcsVerify_iff, ← BitVec.toNat_inj, fcsWord_toNat, fcsCovered, State.octets_length,
    s.octets_getD_toNat (by omega), s.octets_getD_toNat (by omega)]
  exact and_iff_right h

/-- The open chain of a region is read off the octets of the buffer (R173). -/
theorem State.chainOpen_region_iff (s : State) (h : 16 ≤ s.len) : ChainOpen (s.octets.take (s.len - 2)) ↔
    s.octetAt 13 % 2 = 0 ∧ ∀ k, k < 8 → 23 + 7 * k ≤ s.len → s.octetAt (20 + 7 * k) % 2 = 0 := by
  have hget {a : Nat} (ha : a < s.len - 2) : ((s.octets.take (s.len - 2)).getD a 0#8).toNat = s.octetAt a := by
    rw [← s.octets_getD_toNat (by omega), List.getD_eq_getElem?_getD, List.getElem?_take_of_lt ha,
      List.getD_eq_getElem?_getD]
  have hfit (k : Nat) : 21 + 7 * k ≤ (s.octets.take (s.len - 2)).length ↔ 23 + 7 * k ≤ s.len := by
    rw [List.length_take, State.octets_length]
    omega
  unfold ChainOpen
  rw [hget (by omega)]
  refine and_congr_right fun _ => forall_congr' fun k => imp_congr_right fun _ => ?_
  rw [hfit]
  exact imp_congr_right fun hk => by rw [hget (by omega)]

/-- The field of a buffer that reaches the floor fails exactly with its chain open: two whole slots always fit (R163). -/
theorem State.addrField_region_eq_none_iff (s : State) (h : 16 ≤ s.len) :
    addrField (s.octets.take (s.len - 2)) = none ↔
      s.octetAt 13 % 2 = 0 ∧ ∀ k, k < 8 → 23 + 7 * k ≤ s.len → s.octetAt (20 + 7 * k) % 2 = 0 := by
  have h14 : ¬ (s.octets.take (s.len - 2)).length < 14 := by
    rw [List.length_take, State.octets_length]
    omega
  rw [addrField_eq_none_iff, or_iff_right h14, s.chainOpen_region_iff h]

/-- A protocol identifier is called for by the octet of the buffer after the address field (R143). -/
theorem State.listingPidPresent_octets_iff (s : State) {r : FieldOk} (h : r.consumed < s.len) :
    listingPidPresent s.octets r = true ↔ s.octetAt r.consumed % 2 = 0 ∨ s.octetAt r.consumed = 3 := by
  rw [listingPidPresent_iff, listingControl, s.octets_getD_toNat h]

/-- Settles O27: TooShort is the error of the listing's first test only. -/
theorem tooShortExactlyBelowTheFloor : Obligations.TooShortExactlyBelowTheFloor := by
  intro m s
  apply exists_result_iff_of_referenceDecode
  simp [referenceDecode_eq_err_iff, listingFromAddr_eq_err_iff, referenceTail_eq_err_iff]

/-- Settles O28: ChecksumMismatch is the error of the second test only, and at the floor that test compares two numbers. -/
theorem checksumMismatchExactly : Obligations.ChecksumMismatchExactly := by
  intro m s
  have hmin := minLen_ge_sixteen m
  apply exists_result_iff_of_referenceDecode
  have herr : referenceDecode m s.octets = .err .checksumMismatch ↔ m.minLen ≤ s.len ∧ ¬ fcsVerify s.octets = true := by
    simp [referenceDecode_eq_err_iff, listingFromAddr_eq_err_iff, referenceTail_eq_err_iff]
  rw [herr]
  exact and_congr_right fun hlen => not_congr (s.fcsVerify_octets_iff (by omega))

/-- Settles O29: MalformedAddressField is the error of the third test only, which at the floor fails exactly with the chain open. -/
theorem malformedAddressFieldExactly : Obligations.MalformedAddressFieldExactly := by
  intro m s
  have hmin := minLen_ge_sixteen m
  apply exists_result_iff_of_referenceDecode
  have herr : referenceDecode m s.octets = .err .malformedAddressField ↔ m.minLen ≤ s.len ∧
      fcsVerify s.octets = true ∧ addrField (s.octets.take (s.len - 2)) = none := by
    simp [referenceDecode_eq_err_iff, listingFromAddr_eq_err_iff, referenceTail_eq_err_iff]
  rw [herr]
  exact and_congr_right fun hlen => and_congr_right fun _ => s.addrField_region_eq_none_iff (by omega)

/-- Settles O30: Truncated is the error after the address field, where the region ends two octets before the buffer. -/
theorem truncatedExactly : Obligations.TruncatedExactly := by
  intro m s
  have hmin := minLen_ge_sixteen m
  apply exists_result_iff_of_referenceDecode
  have herr : referenceDecode m s.octets = .err .truncated ↔ m.minLen ≤ s.len ∧ fcsVerify s.octets = true ∧
      ∃ f, addrField (s.octets.take (s.len - 2)) = some f ∧
        (s.len - 2 ≤ f.consumed ∨ s.len - 2 = f.consumed + 1 ∧ listingPidPresent s.octets f = true) := by
    simp [referenceDecode_eq_err_iff, listingFromAddr_eq_err_iff, referenceTail_eq_err_iff]
  rw [herr]
  refine and_congr_right fun hlen => and_congr_right fun _ => exists_congr fun f => and_congr_right fun _ => ?_
  have hctl : s.len - 2 ≤ f.consumed ↔ s.len ≤ f.consumed + 2 := by omega
  have hpid : s.len - 2 = f.consumed + 1 ↔ s.len = f.consumed + 3 := by omega
  rw [hctl, hpid]
  exact or_congr_right (and_congr_right fun hend => s.listingPidPresent_octets_iff (by omega))

/-- No instruction raises or takes a start event (R46). -/
theorem exec_next_start {i : Instr} {s t : State} (h : exec i s = .next t) : t.start = s.start := by
  by_cases hi : i = .frameDecode
  · subst hi
    obtain rfl := Host.Outcome.next.inj ((exec_frameDecode_eq s).symm.trans h)
    exact finishCall_start _ s
  · obtain ⟨w, v, heq, -⟩ := exec_component_eq hi s
    obtain rfl := Host.Outcome.next.inj (heq.symm.trans h)
    rfl

/-- After a step no start event stands: it was taken, or there was none (R46). -/
theorem step_next_start {s t : State} (h : step s = .next t) : t.start = false := by
  cases hs : s.start with
  | false =>
    obtain rfl := Host.Outcome.next.inj ((step_of_no_start hs).symm.trans h)
    exact hs
  | true =>
    cases hd : decode s.sel s.octets with
    | ok i => exact exec_next_start ((step_of_decode_ok hs hd).symm.trans h)
    | error r => exact absurd ((step_of_decode_error hs hd).symm.trans h) (by simp)

/-- The call on a presented buffer ends with the listing's result for the octets presented, whatever state they were presented in (R20, R181). -/
theorem step_load_frameDecode (s : State) (bs : List Octet) : step (s.load .frameDecode bs) =
    .next (finishCall (referenceDecode Config.floor bs) (s.load .frameDecode bs).clearStart) := by
  rw [step_of_decode_ok (i := .frameDecode) rfl rfl, exec_frameDecode_eq]
  have hoctets : (s.load .frameDecode bs).clearStart.octets = bs := State.octets_load s .frameDecode bs
  rw [hoctets]

/-- Settles O36: the step leaves the host its move, and the call's result is a function of the octets presented. -/
theorem everyCallIsLikeTheFirst : Obligations.EveryCallIsLikeTheFirst := by
  intro s t bs h
  exact ⟨_, _, _, _, State.present_eq_some_iff.mpr ⟨step_next_start h, rfl⟩, State.present_eq_some_iff.mpr ⟨rfl, rfl⟩,
    step_load_frameDecode t bs, step_load_frameDecode .reset bs, by simp, by simp, by simp⟩

/-- Settles O39: a component writes registers and the returned value, and the wrapper is neither. -/
theorem componentsRaiseNoError : Obligations.ComponentsRaiseNoError := by
  intro i s hi
  obtain ⟨w, v, heq, -⟩ := exec_component_eq hi s
  exact ⟨_, heq, rfl, rfl, rfl, rfl, rfl, rfl, fun _ => rfl⟩

end Sys2Proof.Machine
end

section
/-! PROOF. When the host has a move and what a write reads back as, and the statements of the reset and hazards family. -/

namespace Sys2Proof.Machine

/-- The host has no presentation exactly while a start event stands (U7). -/
theorem State.present_eq_none_iff {s : State} {op : Op} {bs : List Octet} : s.present op bs = none ↔ s.start = true := by
  cases h : s.start <;> simp [State.present, h]

/-- The host has no write exactly while a start event stands (U6) or outside the buffer. -/
theorem State.hostWrite_eq_none_iff {s : State} {addr : Nat} {v : Octet} :
    s.hostWrite addr v = none ↔ s.start = true ∨ s.len ≤ addr := by
  cases h : s.start <;> simp [State.hostWrite, h]

/-- A read after one octet of the buffer is written: the new octet at its offset, every other read as before, faults too (R63, U8). -/
theorem memRead_setOctet {s : State} (hwf : Memory.wf s.buf = true) {addr : Nat} (haddr : addr < s.len) (v : Octet) (a : Nat) :
    memRead (s.setOctet addr v) a = if a = addr then .ok v else memRead s a := by
  by_cases ha : a = addr
  · subst ha
    rw [memRead_of_lt (s.setOctet a v) haddr, State.setOctet_buf, Memory.byteAt_write hwf, if_pos rfl, if_pos rfl]
  · simp only [memRead, State.setOctet_len, State.setOctet_buf, Memory.byteAt_write hwf, ha, if_false]

/-- Settles O47, by the inversion of each move and what a step leaves of the start event. -/
theorem hostMovesOnlyBetweenCalls : Obligations.HostMovesOnlyBetweenCalls := by
  refine ⟨fun _ _ _ => State.present_eq_none_iff, fun _ _ _ => State.hostWrite_eq_none_iff,
    fun _ _ => step_next_start, fun s t op bs h => ?_, fun s t addr v hwf h => ?_⟩
  · obtain ⟨-, rfl⟩ := State.present_eq_some_iff.mp h
    exact ⟨rfl, rfl, rfl, rfl, rfl, rfl, rfl⟩
  · obtain ⟨hstart, haddr, rfl⟩ := State.hostWrite_eq_some_iff.mp h
    exact ⟨hstart, rfl, rfl, rfl, rfl, rfl, rfl, rfl, memRead_setOctet hwf haddr v⟩

/-- Settles O43: reset has no start event standing, so any buffer can be presented, and the call on it gives the listing's result. -/
theorem resetIsIdleWithoutResult : Obligations.ResetIsIdleWithoutResult := by
  refine ⟨rfl, rfl, fun k hk => Vector.getElem?_replicate_of_lt hk, fun bs => ?_⟩
  exact ⟨_, _, State.present_eq_some_iff.mpr ⟨rfl, rfl⟩, step_load_frameDecode .reset bs, finishCall_result _ _⟩

end Sys2Proof.Machine
end
